-- ==== Sys2Proof/Word.lean ====
section
/-! DEFINITION. The word types of the machine and nothing else: bytes, 64-bit words, addresses, and a
512-bit vector register seen as its eight 64-bit elements. -/

namespace Sys2Proof

/-- One byte, the unit of memory and of the instruction stream (10_state.md R19). -/
abbrev Byte := BitVec 8

/-- 64 bits: a general register, `pc`, one vector element (10_state.md R10, 40_vrndscalepd.md R80). -/
abbrev Word64 := BitVec 64

/-- A linear address (20_memory.md R30). -/
abbrev Addr := BitVec 64

/-- A 512-bit vector register or operand, as its eight 64-bit elements: element `j` is bits
`64j+63 : 64j` (10_state.md R14). -/
abbrev Zmm := Vector (BitVec 64) 8

end Sys2Proof
end

