-- ==== Sys2Proof/Syntax.lean ====
section
/-! DEFINITION. The instructions: one constructor per row of spec/opcode_table.json, over the operands
of 30_encoding.md R60 to R66 and 20_memory.md R38. -/

namespace Sys2Proof

/-- The vector length: `(KL, VL)` is (2, 128), (4, 256) or (8, 512) (30_encoding.md R62). -/
inductive VLen where
  | v128
  | v256
  | v512
  deriving DecidableEq, Repr

/-- The writemask operand `{k1}{z}`: the fields EVEX.aaa and EVEX.z (30_encoding.md R66). -/
structure Mask where
  /-- 000b: no writemask; otherwise the number of the opmask register -/
  aaa : BitVec 3
  /-- true: zeroing-masking; false: merging-masking -/
  z : Bool
  deriving DecidableEq, Repr

/-- The displacement of a form with a base register, by ModRM.mod: 00b none, 01b `disp8`, 10b
`disp32` (30_encoding.md R59). -/
inductive Disp where
  | absent
  | disp8 (d : BitVec 8)
  | disp32 (d : BitVec 32)
  deriving DecidableEq, Repr

/-- A memory operand in 64-bit mode (20_memory.md R38). Base and index are 4-bit general register
numbers; the index number 0100b means "no index". -/
inductive MemOperand where
  /-- a base register, no SIB byte -/
  | base (b : BitVec 4) (d : Disp)
  /-- RIP-relative -/
  | rip (d : BitVec 32)
  /-- SIB byte with a base register -/
  | sib (b : BitVec 4) (index : BitVec 4) (scale : BitVec 2) (d : Disp)
  /-- SIB byte without a base register -/
  | sibNoBase (index : BitVec 4) (scale : BitVec 2) (d : BitVec 32)
  deriving DecidableEq, Repr

/-- The ten forms of VRNDSCALEPD (30_encoding.md R70, rows 1 to 10 in order). `dst` and `src` are
5-bit vector register numbers. -/
inductive Instr where
  /-- row 1: `VRNDSCALEPD xmm1 {k1}{z}, xmm2, imm8` -/
  | vrndscalepdXmmReg (dst src : BitVec 5) (mask : Mask) (imm8 : BitVec 8)
  /-- row 2: `VRNDSCALEPD xmm1 {k1}{z}, m128, imm8` -/
  | vrndscalepdXmmMem (dst : BitVec 5) (mem : MemOperand) (mask : Mask) (imm8 : BitVec 8)
  /-- row 3: `VRNDSCALEPD xmm1 {k1}{z}, m64bcst, imm8` -/
  | vrndscalepdXmmBcst (dst : BitVec 5) (mem : MemOperand) (mask : Mask) (imm8 : BitVec 8)
  /-- row 4: `VRNDSCALEPD ymm1 {k1}{z}, ymm2, imm8` -/
  | vrndscalepdYmmReg (dst src : BitVec 5) (mask : Mask) (imm8 : BitVec 8)
  /-- row 5: `VRNDSCALEPD ymm1 {k1}{z}, m256, imm8` -/
  | vrndscalepdYmmMem (dst : BitVec 5) (mem : MemOperand) (mask : Mask) (imm8 : BitVec 8)
  /-- row 6: `VRNDSCALEPD ymm1 {k1}{z}, m64bcst, imm8` -/
  | vrndscalepdYmmBcst (dst : BitVec 5) (mem : MemOperand) (mask : Mask) (imm8 : BitVec 8)
  /-- row 7: `VRNDSCALEPD zmm1 {k1}{z}, zmm2, imm8` -/
  | vrndscalepdZmmReg (dst src : BitVec 5) (mask : Mask) (imm8 : BitVec 8)
  /-- row 8: `VRNDSCALEPD zmm1 {k1}{z}, m512, imm8` -/
  | vrndscalepdZmmMem (dst : BitVec 5) (mem : MemOperand) (mask : Mask) (imm8 : BitVec 8)
  /-- row 9: `VRNDSCALEPD zmm1 {k1}{z}, m64bcst, imm8` -/
  | vrndscalepdZmmBcst (dst : BitVec 5) (mem : MemOperand) (mask : Mask) (imm8 : BitVec 8)
  /-- row 10: `VRNDSCALEPD zmm1 {k1}{z}, zmm2{sae}, imm8` -/
  | vrndscalepdZmmSae (dst src : BitVec 5) (mask : Mask) (imm8 : BitVec 8)
  deriving DecidableEq, Repr

end Sys2Proof
end

