-- ==== Sys2Proof/WellFormed.lean ====
section
/-! DEFINITION. Which instruction terms an encoding can spell (30_encoding.md R59, R66). -/

namespace Sys2Proof

/-- Zeroing-masking needs a writemask: `z = 1` with `aaa = 000b` is #UD (30_encoding.md R66). -/
def Mask.wf (k : Mask) : Bool := !(k.z && k.aaa == 0)

/-- The low three bits of a general register number, the part that ModRM.rm or SIB.base holds. -/
def lowThree (r : BitVec 4) : BitVec 3 := r.setWidth 3

/-- The operand has an encoding: a base register without a SIB byte is none whose low bits are 100b
(those spell a SIB byte), and with no displacement the low bits 101b spell RIP-relative, or no base
(30_encoding.md R59, 20_memory.md R38). -/
def MemOperand.wf : MemOperand → Bool
  | .base b d => lowThree b != 4 && !(d == .absent && lowThree b == 5)
  | .rip _ => true
  | .sib b _ _ d => !(d == .absent && lowThree b == 5)
  | .sibNoBase _ _ _ => true

/-- The instruction has an encoding. -/
def Instr.wf : Instr → Bool
  | .vrndscalepdXmmReg _ _ k _ => k.wf
  | .vrndscalepdXmmMem _ m k _ => k.wf && m.wf
  | .vrndscalepdXmmBcst _ m k _ => k.wf && m.wf
  | .vrndscalepdYmmReg _ _ k _ => k.wf
  | .vrndscalepdYmmMem _ m k _ => k.wf && m.wf
  | .vrndscalepdYmmBcst _ m k _ => k.wf && m.wf
  | .vrndscalepdZmmReg _ _ k _ => k.wf
  | .vrndscalepdZmmMem _ m k _ => k.wf && m.wf
  | .vrndscalepdZmmBcst _ m k _ => k.wf && m.wf
  | .vrndscalepdZmmSae _ _ k _ => k.wf

end Sys2Proof
end

