-- ==== Sys2Proof/Decode.lean ====
section
/-! DEFINITION. The decoder of 30_encoding.md R69, total on any bytes, and after it the length of an
instruction, the encoder, and the host's reading of an opcode-table word. -/

namespace Sys2Proof

/-- What the decoder answers (30_encoding.md R69). -/
inductive Decoded where
  /-- `Form(f, fields, len)` -/
  | form (i : Instr) (len : Nat)
  /-- `UD`: the encoding is this instruction's and illegal, #UD (30_encoding.md R68) -/
  | ud
  /-- `Refused(legacy-prefix)` (30_encoding.md R58) -/
  | refusedLegacyPrefix
  /-- `Refused(sae-with-non-512-length)` (30_encoding.md R63) -/
  | refusedSaeLength
  /-- `NotThisInstruction` -/
  | notThisInstruction
  /-- the bytes given end before the decoder has read all it asks for -/
  | short
  deriving DecidableEq, Repr

/-- Segment-override and address-size prefixes: legal before EVEX and not admitted (30_encoding.md R58). -/
def isRefusedPrefix (b : Byte) : Bool :=
  b == 0x26 || b == 0x2E || b == 0x36 || b == 0x3E || b == 0x64 || b == 0x65 || b == 0x67

/-- The prefixes 66h, F2h, F3h, LOCK and REX, which raise #UD immediately before EVEX (30_encoding.md R58). -/
def isUdPrefix (b : Byte) : Bool :=
  b == 0x66 || b == 0xF2 || b == 0xF3 || b == 0xF0 || b.extractLsb' 4 4 == 4

/-- The vector length that EVEX.L'L names; 11b names none (30_encoding.md R62). -/
def vlenOfLL (ll : BitVec 2) : Option VLen :=
  if ll = 0 then some .v128 else if ll = 1 then some .v256 else if ll = 2 then some .v512 else none

/-- The L'L field of a vector length. -/
def VLen.ll : VLen → BitVec 2
  | .v128 => 0
  | .v256 => 1
  | .v512 => 2

/-- The 5-bit destination register number `R' : R : ModRM.reg`, from the stored (inverted) bits
(30_encoding.md R61). -/
def dstNumber (p0 : Byte) (modrm : Byte) : BitVec 5 :=
  ~~~(p0.extractLsb' 4 1) ++ (~~~(p0.extractLsb' 7 1) ++ modrm.extractLsb' 3 3)

/-- The 5-bit source register number `X : B : ModRM.rm` of a register source (30_encoding.md R61). -/
def srcNumber (p0 : Byte) (modrm : Byte) : BitVec 5 :=
  ~~~(p0.extractLsb' 6 1) ++ (~~~(p0.extractLsb' 5 1) ++ modrm.extractLsb' 0 3)

/-- A general register number extended by X: the SIB index (20_memory.md R38). -/
def indexNumber (p0 : Byte) (sib : Byte) : BitVec 4 := ~~~(p0.extractLsb' 6 1) ++ sib.extractLsb' 3 3

/-- A base register number: the low three bits extended by B (20_memory.md R38). -/
def baseNumber (p0 : Byte) (low : BitVec 3) : BitVec 4 := ~~~(p0.extractLsb' 5 1) ++ low

/-- EVEX.z and EVEX.aaa of P2 (30_encoding.md R54). -/
def maskOfP2 (p2 : Byte) : Mask := ⟨p2.extractLsb' 0 3, p2.getLsbD 7⟩

/-- `disp32`, least significant byte first (30_encoding.md R59). -/
def disp32Of (b0 b1 b2 b3 : Byte) : BitVec 32 := b3 ++ (b2 ++ (b1 ++ b0))

/-- A memory operand together with the bytes after it, or the news that bytes are lacking. -/
abbrev MemParse := Option (MemOperand × Nat × List Byte)

/-- Read the displacement that `mod` asks for after a base register (30_encoding.md R59); `n` bytes of
SIB stand before it. The answer counts the bytes from ModRM's end. -/
def parseDisp (mod : BitVec 2) (mk : Disp → MemOperand) (n : Nat) (rest : List Byte) : MemParse :=
  if mod = 0 then some (mk .absent, n, rest)
  else if mod = 1 then
    match rest with
    | d :: tail => some (mk (.disp8 d), n + 1, tail)
    | [] => none
  else
    match rest with
    | b0 :: b1 :: b2 :: b3 :: tail => some (mk (.disp32 (disp32Of b0 b1 b2 b3)), n + 4, tail)
    | _ => none

/-- Read a 32-bit displacement that stands without a base register: RIP-relative, or SIB with no base
(30_encoding.md R59). -/
def parseDisp32 (mk : BitVec 32 → MemOperand) (n : Nat) (rest : List Byte) : MemParse :=
  match rest with
  | b0 :: b1 :: b2 :: b3 :: tail => some (mk (disp32Of b0 b1 b2 b3), n + 4, tail)
  | _ => none

/-- Read SIB and displacement after a ModRM byte with `mod != 11b` (30_encoding.md R57, R59, R69). -/
def parseMem (p0 modrm : Byte) (rest : List Byte) : MemParse :=
  let mod := modrm.extractLsb' 6 2
  let rm := modrm.extractLsb' 0 3
  if rm = 4 then
    match rest with
    | [] => none
    | sib :: tail =>
      let index := indexNumber p0 sib
      let scale := sib.extractLsb' 6 2
      if mod = 0 ∧ sib.extractLsb' 0 3 = 5 then parseDisp32 (.sibNoBase index scale) 1 tail
      else parseDisp mod (.sib (baseNumber p0 (sib.extractLsb' 0 3)) index scale) 1 tail
  else if mod = 0 ∧ rm = 5 then parseDisp32 .rip 0 rest
  else parseDisp mod (.base (baseNumber p0 rm)) 0 rest

/-- The register form of a vector length (30_encoding.md R70 rows 1, 4, 7). -/
def VLen.regInstr : VLen → BitVec 5 → BitVec 5 → Mask → BitVec 8 → Instr
  | .v128 => .vrndscalepdXmmReg
  | .v256 => .vrndscalepdYmmReg
  | .v512 => .vrndscalepdZmmReg

/-- The full-width memory form of a vector length (30_encoding.md R70 rows 2, 5, 8). -/
def VLen.memInstr : VLen → BitVec 5 → MemOperand → Mask → BitVec 8 → Instr
  | .v128 => .vrndscalepdXmmMem
  | .v256 => .vrndscalepdYmmMem
  | .v512 => .vrndscalepdZmmMem

/-- The broadcast form of a vector length (30_encoding.md R70 rows 3, 6, 9). -/
def VLen.bcstInstr : VLen → BitVec 5 → MemOperand → Mask → BitVec 8 → Instr
  | .v128 => .vrndscalepdXmmBcst
  | .v256 => .vrndscalepdYmmBcst
  | .v512 => .vrndscalepdZmmBcst

/-- A register source, `mod = 11b`: EVEX.b selects `{sae}`, which exists at 512 bits, and at any L'L when
the switch `sae_any_LL` is on (30_encoding.md R63, R69). -/
def decodeReg (saeAnyLL : Bool) (p0 p2 modrm : Byte) (rest : List Byte) : Decoded :=
  let ll := p2.extractLsb' 5 2
  let b := p2.getLsbD 4
  if b && ll != 2 && !saeAnyLL then .refusedSaeLength
  else if b then
    match rest with
    | [] => .short
    | imm8 :: _ => .form (.vrndscalepdZmmSae (dstNumber p0 modrm) (srcNumber p0 modrm) (maskOfP2 p2) imm8) 7
  else
    match vlenOfLL ll, rest with
    | none, _ => .ud
    | some _, [] => .short
    | some vl, imm8 :: _ => .form (vl.regInstr (dstNumber p0 modrm) (srcNumber p0 modrm) (maskOfP2 p2) imm8) 7

/-- A memory source, `mod != 11b`: EVEX.b selects the broadcast (30_encoding.md R63, R69). -/
def decodeMem (p0 p2 modrm : Byte) (rest : List Byte) : Decoded :=
  match vlenOfLL (p2.extractLsb' 5 2) with
  | none => .ud
  | some vl =>
    match parseMem p0 modrm rest with
    | none => .short
    | some (_, _, []) => .short
    | some (m, n, imm8 :: _) =>
      let mk := if p2.getLsbD 4 then vl.bcstInstr else vl.memInstr
      .form (mk (dstNumber p0 modrm) m (maskOfP2 p2) imm8) (6 + n + 1)

/-- After the four EVEX bytes and the opcode byte (30_encoding.md R69). -/
def decodeEvex (saeAnyLL : Bool) (p0 p1 p2 op : Byte) (rest : List Byte) : Decoded :=
  if p0.extractLsb' 2 2 != 0 || p0.extractLsb' 0 2 != 3 then .notThisInstruction
  else if !p1.getLsbD 7 || p1.extractLsb' 0 2 != 1 || op != 0x09 then .notThisInstruction
  else if !p1.getLsbD 2 then .ud
  else if p1.extractLsb' 3 4 != 15 then .ud
  else if !p2.getLsbD 3 then .ud
  else if p2.getLsbD 7 && p2.extractLsb' 0 3 == 0 then .ud
  else
    match rest with
    | [] => .short
    | modrm :: tail =>
      if modrm.extractLsb' 6 2 = 3 then decodeReg saeAnyLL p0 p2 modrm tail
      else decodeMem p0 p2 modrm tail

/-- `Decode` of 30_encoding.md R69: the bytes from `pc` on, and the configuration switch `sae_any_LL`.
It reads no byte beyond those the pseudocode reads, and answers `short` when one of those is lacking. -/
def decode (saeAnyLL : Bool) (bytes : List Byte) : Decoded :=
  match bytes with
  | [] => .short
  | b0 :: tail =>
    if isRefusedPrefix b0 then .refusedLegacyPrefix
    else if isUdPrefix b0 then
      match tail with
      | [] => .short
      | b1 :: _ => if b1 = 0x62 then .ud else .notThisInstruction
    else if b0 ≠ 0x62 then .notThisInstruction
    else
      match tail with
      | p0 :: p1 :: p2 :: op :: rest => decodeEvex saeAnyLL p0 p1 p2 op rest
      | _ => .short

/-! ### Lengths (30_encoding.md R50) -/

/-- The bytes a displacement takes (30_encoding.md R59). -/
def Disp.size : Disp → Nat
  | .absent => 0
  | .disp8 _ => 1
  | .disp32 _ => 4

/-- The SIB and displacement bytes of a memory operand. -/
def MemOperand.size : MemOperand → Nat
  | .base _ d => d.size
  | .rip _ => 4
  | .sib _ _ _ d => 1 + d.size
  | .sibNoBase _ _ _ => 5

/-- The length of a register form (30_encoding.md R50). -/
def regLength : Nat := 7

/-- The length of a memory form: 7, one for SIB, and the displacement (30_encoding.md R50). -/
def memLength (m : MemOperand) : Nat := 7 + m.size

/-- `len`, the instruction's length in bytes (30_encoding.md R50). -/
def Instr.length : Instr → Nat
  | .vrndscalepdXmmReg _ _ _ _ => regLength
  | .vrndscalepdXmmMem _ m _ _ => memLength m
  | .vrndscalepdXmmBcst _ m _ _ => memLength m
  | .vrndscalepdYmmReg _ _ _ _ => regLength
  | .vrndscalepdYmmMem _ m _ _ => memLength m
  | .vrndscalepdYmmBcst _ m _ _ => memLength m
  | .vrndscalepdZmmReg _ _ _ _ => regLength
  | .vrndscalepdZmmMem _ m _ _ => memLength m
  | .vrndscalepdZmmBcst _ m _ _ => memLength m
  | .vrndscalepdZmmSae _ _ _ _ => regLength

/-! ### The encoder -/

/-- P0 from the four register-number extension bits (not inverted) and `mm = 11b` (30_encoding.md R52). -/
def encodeP0 (r x b r' : Bool) : Byte :=
  BitVec.ofBool (!r) ++ (BitVec.ofBool (!x) ++ (BitVec.ofBool (!b) ++ (BitVec.ofBool (!r') ++ (3 : BitVec 4))))

/-- P1 of every form (30_encoding.md R53). -/
def encodeP1 : Byte := 0xFD

/-- P2: z, L'L, b, V'-bar = 1, aaa (30_encoding.md R54). -/
def encodeP2 (vl : VLen) (b : Bool) (k : Mask) : Byte :=
  BitVec.ofBool k.z ++ (vl.ll ++ (BitVec.ofBool b ++ (BitVec.ofBool true ++ k.aaa)))

/-- ModRM: mod, reg, rm (30_encoding.md R56). -/
def encodeModRM (mod : BitVec 2) (dst : BitVec 5) (rm : BitVec 3) : Byte := mod ++ (dst.extractLsb' 0 3 ++ rm)

/-- SIB: scale, index, base (30_encoding.md R57). -/
def encodeSib (scale : BitVec 2) (index base : BitVec 3) : Byte := scale ++ (index ++ base)

/-- The four bytes of a `disp32`, least significant first (30_encoding.md R59). -/
def encodeDisp32 (d : BitVec 32) : List Byte :=
  [d.extractLsb' 0 8, d.extractLsb' 8 8, d.extractLsb' 16 8, d.extractLsb' 24 8]

/-- The bytes of a displacement. -/
def Disp.bytes : Disp → List Byte
  | .absent => []
  | .disp8 d => [d]
  | .disp32 d => encodeDisp32 d

/-- ModRM.mod of a displacement after a base register (30_encoding.md R59). -/
def Disp.mod : Disp → BitVec 2
  | .absent => 0
  | .disp8 _ => 1
  | .disp32 _ => 2

/-- P0, ModRM and what follows it, for a memory operand. Bits of P0 that the form ignores
(20_memory.md R38) are stored as 1. -/
def MemOperand.encode (dst : BitVec 5) : MemOperand → Byte × Byte × List Byte
  | .base b d =>
    (encodeP0 (dst.getLsbD 3) false (b.getLsbD 3) (dst.getLsbD 4), encodeModRM d.mod dst (lowThree b), d.bytes)
  | .rip d =>
    (encodeP0 (dst.getLsbD 3) false false (dst.getLsbD 4), encodeModRM 0 dst 5, encodeDisp32 d)
  | .sib b index scale d =>
    (encodeP0 (dst.getLsbD 3) (index.getLsbD 3) (b.getLsbD 3) (dst.getLsbD 4), encodeModRM d.mod dst 4,
      encodeSib scale (lowThree index) (lowThree b) :: d.bytes)
  | .sibNoBase index scale d =>
    (encodeP0 (dst.getLsbD 3) (index.getLsbD 3) false (dst.getLsbD 4), encodeModRM 0 dst 4,
      encodeSib scale (lowThree index) 5 :: encodeDisp32 d)

/-- A form with a register source (30_encoding.md R50, R61). -/
def encodeReg (vl : VLen) (b : Bool) (dst src : BitVec 5) (k : Mask) (imm8 : BitVec 8) : List Byte :=
  [0x62, encodeP0 (dst.getLsbD 3) (src.getLsbD 4) (src.getLsbD 3) (dst.getLsbD 4), encodeP1, encodeP2 vl b k, 0x09,
    encodeModRM 3 dst (src.extractLsb' 0 3), imm8]

/-- A form with a memory source (30_encoding.md R50). -/
def encodeMem (vl : VLen) (b : Bool) (dst : BitVec 5) (m : MemOperand) (k : Mask) (imm8 : BitVec 8) : List Byte :=
  let e := m.encode dst
  [0x62, e.1, encodeP1, encodeP2 vl b k, 0x09, e.2.1] ++ (e.2.2 ++ [imm8])

/-- The bytes of a well-formed instruction, the first at the lowest address (30_encoding.md R50). -/
def encode : Instr → List Byte
  | .vrndscalepdXmmReg dst src k imm8 => encodeReg .v128 false dst src k imm8
  | .vrndscalepdXmmMem dst m k imm8 => encodeMem .v128 false dst m k imm8
  | .vrndscalepdXmmBcst dst m k imm8 => encodeMem .v128 true dst m k imm8
  | .vrndscalepdYmmReg dst src k imm8 => encodeReg .v256 false dst src k imm8
  | .vrndscalepdYmmMem dst m k imm8 => encodeMem .v256 false dst m k imm8
  | .vrndscalepdYmmBcst dst m k imm8 => encodeMem .v256 true dst m k imm8
  | .vrndscalepdZmmReg dst src k imm8 => encodeReg .v512 false dst src k imm8
  | .vrndscalepdZmmMem dst m k imm8 => encodeMem .v512 false dst m k imm8
  | .vrndscalepdZmmBcst dst m k imm8 => encodeMem .v512 true dst m k imm8
  | .vrndscalepdZmmSae dst src k imm8 => encodeReg .v512 true dst src k imm8

/-! ### The host's numbering of an instruction's bits -/

/-- The longest instruction, in bytes (30_encoding.md R50). -/
def longestInstruction : Nat := 12

/-- The bytes of an instruction whose bits are the low `nbits` bits of `w`: the first byte is bits 7..0,
the next bits 15..8, and so on; every bit from `nbits` on is 0. -/
def bytesOfWord (nbits w : Nat) : List Byte :=
  (List.range longestInstruction).map fun i => BitVec.ofNat 8 ((w % 2 ^ nbits) / 2 ^ (8 * i))

/-- The bytes of a number written as the `match` column of spec/opcode_table.json is, its first byte the most
significant (30_encoding.md R70): the bytes of `bytesOfWord` in reverse, and zeros after them. -/
def bytesOfMatch (nbits w : Nat) : List Byte :=
  ((bytesOfWord nbits w).take (nbits / 8)).reverse ++ List.replicate (longestInstruction - nbits / 8) 0

/-- The bytes spell a form of the instruction. -/
def spellsForm (bytes : List Byte) : Bool :=
  match decode false bytes with
  | .form _ _ => true
  | _ => false

/-- The bytes of the host's word: the first byte lowest, unless only the opcode table's own order, the first byte
highest, spells an instruction (log entry 22). -/
def bytesOfTableWord (nbits w : Nat) : List Byte :=
  if !spellsForm (bytesOfWord nbits w) && spellsForm (bytesOfMatch nbits w) then bytesOfMatch nbits w
  else bytesOfWord nbits w

/-- The instruction the decoder reads from such a word, with `sae_any_LL` at its default, false
(00_scope.md R4). -/
def decodeTableWord (nbits w : Nat) : Option Instr :=
  match decode false (bytesOfTableWord nbits w) with
  | .form i _ => some i
  | _ => none

end Sys2Proof
end

