-- ==== Sys2Proof/Config.lean ====
section
/-! DEFINITION. What an implementation fixes: the parameters of 00_scope.md R4 (as the types in which
the state holds them) and the free values the spec leaves open. -/

namespace Sys2Proof

namespace Config

/-- `MAXVL`, the width of a full vector register (00_scope.md R4, 92_eei_decisions.md D28). -/
def maxVL : Nat := 512

/-- The longest instruction the processor fetches, in bytes (20_memory.md R45). -/
def fetchLimit : Nat := 15

/-- What a byte of memory that is not listed reads as. DESIGN CHOICE (log entry 4), unsafe: the
spec gives memory no reset contents (10_state.md R21: "unspecified"). -/
def unlistedByte : Byte := 0

/-- The free values of the model: draw number `n`. 60_exceptions.md R125, third row of its table
(93_implementation_defined.md U1), leaves MXCSR.IE and MXCSR.PE open after an unmasked SIMD
floating-point exception that detected both conditions; each of the two is one draw. It has no body,
so nothing can be proved of its values (log entry 6). -/
opaque freeFlag : Nat → Bool

end Config

/-- What an access is for: the `kind` argument of `Translate` (20_memory.md R36). -/
inductive AccessKind where
  /-- the read of a memory operand -/
  | dataRead
  /-- the fetch of an instruction byte -/
  | fetch
  deriving DecidableEq, Repr

/-- What `Translate` answers (20_memory.md R36). -/
inductive Verdict where
  /-- `Ok`: the access is allowed -/
  | allow
  /-- the address is not canonical: #GP(0), or #SS(0) for an operand based on RSP or RBP -/
  | nonCanonical
  /-- page not present or not permitted: #PF with its error code and the faulting linear address
  (60_exceptions.md R123) -/
  | pageFault (code : BitVec 32) (addr : Addr)
  /-- the access is allowed, but it reaches memory whose reads have side effects, which the spec
  gives no meaning (20_memory.md R35, 93_implementation_defined.md U11) -/
  | sideEffects
  deriving DecidableEq, Repr

/-- One line of a translation table: the accesses of one kind whose first byte lies in `lo..hi` and
whose width in bytes lies in `nlo..nhi`, and the answer they get. A line may name one single access,
so a table can write out any function of `(a, n, kind)` on the widths the machine uses. -/
structure XlatRule where
  kind : AccessKind
  lo : Nat
  hi : Nat
  nlo : Nat
  nhi : Nat
  verdict : Verdict
  deriving DecidableEq, Repr

/-- The CPUID feature flags that provide the instruction (00_scope.md R1, R4). -/
structure Cpuid where
  avx512f : Bool
  avx512vl : Bool
  avx10_1 : Bool
  deriving DecidableEq, Repr

/-- Operating modes (00_scope.md R3, 10_state.md R21, 60_exceptions.md R121 j, R131). -/
inductive Mode where
  | realAddress
  | virtual8086
  /-- 32-bit protected mode -/
  | protected32
  | compatibility
  /-- 64-bit mode, the only one this spec decodes (92_eei_decisions.md D3) -/
  | bits64
  deriving DecidableEq, Repr

end Sys2Proof
end

