-- ==== Sys2Proof/Machine/State.lean ====
section
/-! DEFINITION. The state of the machine as plain data, its value after reset, and the reasons a step
stops with a fault or a refusal. -/

namespace Sys2Proof.Machine

/-- The machine (10_state.md R10), with what 00_scope.md R4 calls the configuration held beside it as plain
data, so that every statement over a `State` is also one over every configuration. -/
structure State where
  /-- `zmm[0..31]`, 512 bits each, as eight elements of 64 bits (10_state.md R14) -/
  zmm : Vector Zmm 32
  /-- `k[0..7]`, the opmask registers (10_state.md R15) -/
  k : Vector (BitVec 64) 8
  /-- MXCSR, 32 bits (10_state.md R16) -/
  mxcsr : BitVec 32
  /-- `x[0..15]`, the general registers (10_state.md R11) -/
  x : Vector (BitVec 64) 16
  /-- RIP (10_state.md R12) -/
  pc : Addr
  /-- RFLAGS (10_state.md R10, R13) -/
  rflags : BitVec 64
  /-- `Mem`, as its listed bytes (10_state.md R19) -/
  mem : List Host.Cell
  /-- the operating mode (00_scope.md R4 `mode`, 10_state.md R21) -/
  mode : Mode
  /-- the hidden base of the code segment: what reset leaves is in 10_state.md R21; in 64-bit mode the
  base is zero (20_memory.md R38). PRESUMED: 64 bits wide, the family's width; the spec gives none (log entry 11) -/
  csBase : BitVec 64
  /-- CR0.TS, bit 3 of CR0 (10_state.md R18; `Cfg.cr0_ts`) -/
  cr0Ts : Bool
  /-- CR4.OSXSAVE, bit 18 of CR4 (10_state.md R18) -/
  cr4Osxsave : Bool
  /-- CR4.OSXMMEXCPT, bit 10 of CR4 (10_state.md R18; `Cfg.osxmmexcpt`) -/
  cr4Osxmmexcpt : Bool
  /-- XCR0 (10_state.md R18) -/
  xcr0 : BitVec 64
  /-- the CPUID feature flags (`Cfg.feat_AVX512F`, `feat_AVX512VL`, `feat_AVX10_1`; 00_scope.md R4) -/
  cpuid : Cpuid
  /-- the switch `Cfg.sae_any_LL` (00_scope.md R4, 30_encoding.md R63) -/
  saeAnyLL : Bool
  /-- the function `Cfg.Translate`, written out as a table (20_memory.md R36) -/
  xlat : List XlatRule
  /-- the model's own: how many free values have been drawn (log entry 6) -/
  draws : Nat
  deriving DecidableEq, Repr

/-- The machine stops with an exception of 60_exceptions.md R120, which the spec does not deliver: a fault is
terminal (R127, R128). Each carries the state it leaves: the state before the instruction, but for the flags
that R125 sets. Ending the run where the hardware would enter a handler is safe (92_eei_decisions.md D8). -/
inductive Fault where
  /-- #UD, vector 6. Raised by `step` on an illegal encoding (60_exceptions.md R121 a to f) and by every meaning
  when the feature or enable conditions fail (R121 g, h), in real-address and virtual-8086 mode (R121 j), and for
  an unmasked SIMD floating-point exception with CR4.OSXMMEXCPT = 0 (R121 i). Safe. -/
  | invalidOpcode (left : State)
  /-- #NM, vector 7. Raised by every meaning when CR0.TS = 1 (60_exceptions.md R122). Safe. -/
  | deviceNotAvailable (left : State)
  /-- #SS(0), vector 12. Raised by the memory forms for a non-canonical operand address formed with base RSP or
  RBP (60_exceptions.md R123). Safe. -/
  | stackFault (left : State)
  /-- #GP(0), vector 13. Raised by the memory forms for any other non-canonical operand address
  (60_exceptions.md R123), and by `step` for a non-canonical `pc` and for an instruction longer than 15 bytes
  (20_memory.md R45). Safe. -/
  | generalProtection (left : State)
  /-- #PF(code), vector 14, with the faulting linear address that the hardware records in CR2. Raised by the memory
  forms (60_exceptions.md R123) and by `step` on fetch (20_memory.md R45). Safe; but it is also raised for bytes
  of masked-off elements, where the hardware suppresses it (20_memory.md R46), which is safe too. -/
  | pageFault (code : BitVec 32) (addr : Addr) (left : State)
  /-- #XM, vector 19. Raised by every form but `{sae}` for an unmasked invalid or precision condition with
  CR4.OSXMMEXCPT = 1 (60_exceptions.md R125). Safe. -/
  | simdException (left : State)
  deriving DecidableEq, Repr

/-- The bytes, the mode or the launch is outside what the spec admits (00_scope.md R8). Every refusal is
safe: nothing can be proved of what the hardware does there. -/
inductive Refusal where
  /-- Raised by `exec` for a constructor that has no meaning yet; no constructor of this model is left so. Safe. -/
  | notModelled (mnemonic : String)
  /-- Raised by `step` in any mode but 64-bit mode, and by every meaning in 32-bit protected and compatibility
  mode (92_eei_decisions.md D3). Safe. -/
  | modeNotAdmitted
  /-- Raised by `step`: a segment-override or address-size byte before EVEX (30_encoding.md R58). Safe. -/
  | legacyPrefix
  /-- Raised by `step`: EVEX.b = 1 with a register source and L'L other than 10b, while `sae_any_LL` is false
  (30_encoding.md R63). Safe. -/
  | saeWithNon512Length
  /-- Raised by `step`: the bytes spell no form of VRNDSCALEPD (30_encoding.md R69). Safe. -/
  | notThisInstruction
  /-- Raised by `step` when the instruction's bytes cross the canonical boundary or wrap at 2^64, and by every
  meaning when `pc + len` does (10_state.md R12, 92_eei_decisions.md D29). Safe. -/
  | pcLeavesRange
  /-- Raised when a memory operand, or an instruction byte, lies in memory whose reads have side effects
  (20_memory.md R35, 93_implementation_defined.md U11). Safe. -/
  | sideEffectingRead
  deriving DecidableEq, Repr

/-- The machine after RESET (10_state.md R21, middle column). Values the column does not give: RDX (log entry 2),
RFLAGS but for IF (log entry 3), memory (log entry 4), and the configuration `cpuid`, `saeAnyLL`, `xlat` (log
entry 5). -/
def State.reset : State where
  zmm := Vector.replicate 32 (Vector.replicate 8 0)
  k := Vector.replicate 8 0
  mxcsr := 0x00001F80
  x := Vector.replicate 16 0
  pc := 0x000000000000FFF0
  rflags := 0x0000000000000002
  mem := []
  mode := .realAddress
  csBase := 0xFFFF0000
  cr0Ts := false
  cr4Osxsave := false
  cr4Osxmmexcpt := false
  xcr0 := 1
  cpuid := ⟨true, true, true⟩
  saeAnyLL := false
  xlat := []
  draws := 0

end Sys2Proof.Machine
end

