-- ==== Sys2Proof/Machine/Ops.lean ====
section
/-! DEFINITION. The shared operations: registers, vector elements, memory, translation, raising an exception,
the conditions under which an instruction executes, the program counter, and fetching. -/

namespace Sys2Proof.Machine

/-- The outcome of one instruction (00_scope.md R8). -/
abbrev Result := Host.Outcome State Fault Refusal

/-! ### Vector elements (10_state.md R14) -/

/-- Element `j` of a vector, bits `64j+63 : 64j`. -/
def lane (v : Zmm) (j : Fin 8) : Word64 := v[j.val]

/-- The vector whose element `j` is `f j`. -/
def mkLanes (f : Fin 8 → Word64) : Zmm := #v[f 0, f 1, f 2, f 3, f 4, f 5, f 6, f 7]

/-- Some element satisfies `p`. -/
def anyLane (p : Fin 8 → Bool) : Bool := p 0 || p 1 || p 2 || p 3 || p 4 || p 5 || p 6 || p 7

/-- The register as one 512-bit vector, the view of 10_state.md R14. -/
def zmmBits (v : Zmm) : BitVec 512 :=
  lane v 7 ++ (lane v 6 ++ (lane v 5 ++ (lane v 4 ++ (lane v 3 ++ (lane v 2 ++ (lane v 1 ++ lane v 0))))))

/-- `KL`, the number of elements (30_encoding.md R62). -/
def kl : VLen → Nat
  | .v128 => 2
  | .v256 => 4
  | .v512 => 8

/-- The low VL bits of a register, the rest zero: `xmmN`, `ymmN`, `zmmN` as a source (10_state.md R14). -/
def lowLanes (vl : VLen) (v : Zmm) : Zmm := mkLanes fun j => if j.val < kl vl then lane v j else 0

/-! ### Registers -/

/-- `zmm[r]` (00_scope.md R6). -/
def State.readZmm (s : State) (r : BitVec 5) : Zmm := s.zmm[r.toNat]'r.isLt

/-- `zmm[r] <- v`, all 512 bits (00_scope.md R6). -/
def State.writeZmm (s : State) (r : BitVec 5) (v : Zmm) : State :=
  { s with zmm := s.zmm.set r.toNat v r.isLt }

/-- `k[r]` (00_scope.md R6). -/
def State.readK (s : State) (r : BitVec 3) : BitVec 64 := s.k[r.toNat]'r.isLt

/-- `x[r]` (00_scope.md R6, 10_state.md R11). -/
def State.readX (s : State) (r : BitVec 4) : BitVec 64 := s.x[r.toNat]'r.isLt

/-- `x[r] <- v`, defined by 00_scope.md R6 and used by no instruction in scope. -/
def State.writeX (s : State) (r : BitVec 4) (v : BitVec 64) : State :=
  { s with x := s.x.set r.toNat v r.isLt }

/-! ### Memory as listed bytes -/

/-- The byte at an address. -/
def Memory.read (m : List Host.Cell) (a : Nat) : Byte :=
  match m with
  | [] => Config.unlistedByte
  | (k, v) :: rest => if k = a then v else Memory.read rest a

/-- Put a byte before the cells of `rest`, unless it is what an unlisted address reads as. -/
def Memory.consCell (a : Nat) (v : Byte) (rest : List Host.Cell) : List Host.Cell :=
  if v = Config.unlistedByte then rest else (a, v) :: rest

/-- Write one byte, keeping the canonical form. -/
def Memory.write (m : List Host.Cell) (a : Nat) (v : Byte) : List Host.Cell :=
  match m with
  | [] => Memory.consCell a v []
  | (k, w) :: rest =>
    if a < k then Memory.consCell a v ((k, w) :: rest)
    else if a = k then Memory.consCell a v rest
    else (k, w) :: Memory.write rest a v

/-- The cells lie at `lo` or above, rise strictly, stay in the address space, and none holds what an unlisted
address reads as. -/
def Memory.wfFrom (lo : Nat) (m : List Host.Cell) : Bool :=
  match m with
  | [] => true
  | (k, v) :: rest => decide (lo ≤ k) && decide (k < 2 ^ 64) && decide (v ≠ Config.unlistedByte) && Memory.wfFrom (k + 1) rest

/-- The canonical form of a memory. -/
def Memory.wf (m : List Host.Cell) : Bool := Memory.wfFrom 0 m

/-- The byte at a linear address (20_memory.md R30). -/
def State.readByte (s : State) (a : Addr) : Byte := Memory.read s.mem a.toNat

/-- The `n` bytes from `a` on as one bit vector, the byte at `a` lowest, addresses modulo 2^64
(20_memory.md R31). -/
def memBits (m : List Host.Cell) (a : Addr) : (n : Nat) → BitVec (8 * n)
  | 0 => 0
  | n + 1 => (Memory.read m (a + BitVec.ofNat 64 n).toNat ++ memBits m a n).cast (by omega)

/-- Store bytes at rising addresses, modulo 2^64: `MemWrite` (00_scope.md R6), used by no instruction in scope. -/
def storeBytes (m : List Host.Cell) (a : Addr) (bs : List Byte) : List Host.Cell :=
  match bs with
  | [] => m
  | b :: rest => storeBytes (Memory.write m a.toNat b) (a + 1) rest

/-! ### Translation (20_memory.md R36) -/

/-- The table line speaks of this access. -/
def ruleCovers (r : XlatRule) (a : Addr) (n : Nat) (kind : AccessKind) : Bool :=
  decide (r.kind = kind) && decide (r.lo ≤ a.toNat) && decide (a.toNat ≤ r.hi) && decide (r.nlo ≤ n) && decide (n ≤ r.nhi)

/-- `Cfg.Translate(a, n, kind)`: the first line that covers the access answers; an access no line covers is
allowed. Addresses are not remapped. -/
def translateAccess (t : List XlatRule) (a : Addr) (n : Nat) (kind : AccessKind) : Verdict :=
  match t.find? fun r => ruleCovers r a n kind with
  | some r => r.verdict
  | none => .allow

/-! ### Exceptions (60_exceptions.md R120, R127) -/

/-- `raise E(info)`: the run ends with the fault, which carries the state left (00_scope.md R6, 60_exceptions.md
R127). The spec describes no delivery, handler or return (R128). -/
def raise (e : State → Fault) (left : State) : Result := .fault (e left)

/-- The state a fault leaves. -/
def Fault.left : Fault → State
  | .invalidOpcode s => s
  | .deviceNotAvailable s => s
  | .stackFault s => s
  | .generalProtection s => s
  | .pageFault _ _ s => s
  | .simdException s => s

/-- The exception's vector number (60_exceptions.md R120). -/
def Fault.vector : Fault → Nat
  | .invalidOpcode _ => 6
  | .deviceNotAvailable _ => 7
  | .stackFault _ => 12
  | .generalProtection _ => 13
  | .pageFault _ _ _ => 14
  | .simdException _ => 19

/-- The error code, where the exception has one (60_exceptions.md R120). -/
def Fault.errorCode : Fault → Option (BitVec 32)
  | .invalidOpcode _ => none
  | .deviceNotAvailable _ => none
  | .stackFault _ => some 0
  | .generalProtection _ => some 0
  | .pageFault code _ _ => some code
  | .simdException _ => none

/-- The faulting linear address that #PF records (60_exceptions.md R120, R123). -/
def Fault.recordedAddress : Fault → Option Addr
  | .pageFault _ addr _ => some addr
  | _ => none

/-- The saved instruction pointer: all are faults, and it addresses the instruction itself (60_exceptions.md R120). -/
def Fault.savedPc (f : Fault) : Addr := f.left.pc

/-! ### When the instruction executes (60_exceptions.md R121, R122, R124) -/

/-- `Cfg.os_enabled`: CR4.OSXSAVE = 1, XCR0[2:1] = 11b and XCR0[7:5] = 111b (60_exceptions.md R124). -/
def State.osEnabled (s : State) : Bool :=
  s.cr4Osxsave && s.xcr0.extractLsb' 1 2 == 3 && s.xcr0.extractLsb' 5 3 == 7

/-- `FeatureOK(VL)` (40_vrndscalepd.md R97). -/
def State.featureOk (s : State) (vl : VLen) : Bool :=
  match vl with
  | .v512 => s.cpuid.avx512f || s.cpuid.avx10_1
  | .v128 | .v256 => (s.cpuid.avx512vl && s.cpuid.avx512f) || s.cpuid.avx10_1

/-- Run `body` where the instruction may execute; else what 40_vrndscalepd.md R97 raises before the source is
read, in its order: #UD for the mode (60_exceptions.md R121 j), for the OS enable (R121 h) and for the CPUID
condition (R121 g), then #NM (R122). 32-bit modes are refused (92_eei_decisions.md D3). -/
def gated (vl : VLen) (s : State) (body : Result) : Result :=
  match s.mode with
  | .realAddress | .virtual8086 => raise .invalidOpcode s
  | .protected32 | .compatibility => .refused .modeNotAdmitted
  | .bits64 =>
    if !(s.osEnabled && s.featureOk vl) then raise .invalidOpcode s
    else if s.cr0Ts then raise .deviceNotAvailable s
    else body

/-! ### The program counter (10_state.md R12, 40_vrndscalepd.md R96) -/

/-- `pc + len` does not wrap and is a canonical address, as `Translate` sees it (10_state.md R12;
log entry 8). -/
def State.nextPcOk (s : State) (len : Nat) : Bool :=
  decide (s.pc.toNat + len < 2 ^ 64) && translateAccess s.xlat (s.pc + BitVec.ofNat 64 len) 1 .fetch != .nonCanonical

/-- `pc <- pc + len`; where that leaves the range the spec refuses (92_eei_decisions.md D29). -/
def advance (len : Nat) (s : State) : Result :=
  if s.nextPcOk len then .next { s with pc := s.pc + BitVec.ofNat 64 len } else .refused .pcLeavesRange

/-! ### Fetching an instruction's bytes (20_memory.md R45) -/

/-- Why no further byte can be fetched. -/
inductive FetchStop where
  /-- the limit on an instruction's length is reached -/
  | tooLong
  /-- `Translate` answers that the byte's address is not canonical -/
  | nonCanonical
  /-- `Translate` answers #PF -/
  | pageFault (code : BitVec 32) (addr : Addr)
  /-- the byte lies in memory whose reads have side effects -/
  | sideEffects
  /-- the next byte would be at address 2^64 -/
  | wraps
  deriving DecidableEq, Repr

/-- At most `n` bytes from `a` on, in address order, each through `Translate(addr, 1, fetch)`, up to the first that
cannot be had, and why it cannot. -/
def fetchFrom (t : List XlatRule) (m : List Host.Cell) (a : Addr) : Nat → List Byte × FetchStop
  | 0 => ([], .tooLong)
  | n + 1 =>
    match translateAccess t a 1 .fetch with
    | .nonCanonical => ([], .nonCanonical)
    | .pageFault code addr => ([], .pageFault code addr)
    | .sideEffects => ([], .sideEffects)
    | .allow =>
      let b := Memory.read m a.toNat
      if a = BitVec.allOnes 64 then ([b], .wraps)
      else
        let more := fetchFrom t m (a + 1) n
        (b :: more.1, more.2)

/-- The bytes the decoder may draw on. Those it does not ask for have no effect. -/
def State.fetch (s : State) : List Byte × FetchStop := fetchFrom s.xlat s.mem s.pc Config.fetchLimit

/-- What becomes of an instruction whose next byte cannot be fetched, given what the fetch drew (20_memory.md R45).
Where the first byte already is not canonical the fetch raises #GP(0); where a later one is, the code crosses the
canonical boundary, and the spec refuses it (10_state.md R12, 92_eei_decisions.md D29). -/
def fetchFault (drawn : List Byte × FetchStop) (s : State) : Result :=
  match drawn.2 with
  | .tooLong => raise .generalProtection s
  | .nonCanonical => if drawn.1 = [] then raise .generalProtection s else .refused .pcLeavesRange
  | .pageFault code addr => raise (.pageFault code addr) s
  | .sideEffects => .refused .sideEffectingRead
  | .wraps => .refused .pcLeavesRange

/-! ### Boot (70_reset_and_hazards.md R141) -/

/-- What software must have done between RESET and the first instruction of a program: enter 64-bit mode, enable
the AVX-512 state, clear CR0.TS, and have unmasked SIMD floating-point exceptions arrive as #XM (R141 items 1, 3,
4, 5). -/
def State.boot (s : State) : State :=
  { s with mode := .bits64, csBase := 0, cr0Ts := false, cr4Osxsave := true, cr4Osxmmexcpt := true, xcr0 := s.xcr0 ||| 0xE6 }

/-- Let `Translate` allow the fetch of the longest instruction at `pc`, if it does not. -/
def State.allowFetch (s : State) : State :=
  if (List.range (longestInstruction + 1)).all fun i => translateAccess s.xlat (s.pc + BitVec.ofNat 64 i) 1 .fetch == .allow then s
  else { s with xlat := ⟨.fetch, s.pc.toNat, s.pc.toNat + longestInstruction, 1, 1, .allow⟩ :: s.xlat }

/-- A launch (70_reset_and_hazards.md R142): `s`, booted if it is not in 64-bit mode, with `bs` standing at `pc` and
fetchable (`CodeAt`). -/
def launched (s : State) (bs : List Byte) : State :=
  let s1 := if s.mode = .bits64 then s else s.boot
  let s2 := s1.allowFetch
  { s2 with mem := storeBytes s2.mem s2.pc bs }

end Sys2Proof.Machine
end

