-- ==== Sys2Proof/Machine/Flags.lean ====
section
/-! DEFINITION. MXCSR: its fields (10_state.md R16), and the flags and exceptions that follow from the invalid and
precision conditions (40_vrndscalepd.md R93, 60_exceptions.md R125). -/

namespace Sys2Proof.Machine

/-- MXCSR.IE, the invalid-operation flag. -/
def mxcsrIE (m : BitVec 32) : Bool := m.getLsbD 0
/-- MXCSR.DE, the denormal flag. -/
def mxcsrDE (m : BitVec 32) : Bool := m.getLsbD 1
/-- MXCSR.ZE, the divide-by-zero flag. -/
def mxcsrZE (m : BitVec 32) : Bool := m.getLsbD 2
/-- MXCSR.OE, the overflow flag. -/
def mxcsrOE (m : BitVec 32) : Bool := m.getLsbD 3
/-- MXCSR.UE, the underflow flag. -/
def mxcsrUE (m : BitVec 32) : Bool := m.getLsbD 4
/-- MXCSR.PE, the precision flag. -/
def mxcsrPE (m : BitVec 32) : Bool := m.getLsbD 5
/-- MXCSR.DAZ, denormals are zeros. -/
def mxcsrDAZ (m : BitVec 32) : Bool := m.getLsbD 6
/-- MXCSR.IM, the invalid-operation mask (1 = masked). -/
def mxcsrIM (m : BitVec 32) : Bool := m.getLsbD 7
/-- MXCSR.DM, the denormal mask. -/
def mxcsrDM (m : BitVec 32) : Bool := m.getLsbD 8
/-- MXCSR.ZM, the divide-by-zero mask. -/
def mxcsrZM (m : BitVec 32) : Bool := m.getLsbD 9
/-- MXCSR.OM, the overflow mask. -/
def mxcsrOM (m : BitVec 32) : Bool := m.getLsbD 10
/-- MXCSR.UM, the underflow mask. -/
def mxcsrUM (m : BitVec 32) : Bool := m.getLsbD 11
/-- MXCSR.PM, the precision mask (1 = masked). -/
def mxcsrPM (m : BitVec 32) : Bool := m.getLsbD 12
/-- MXCSR.RC, the rounding control. -/
def mxcsrRC (m : BitVec 32) : BitVec 2 := m.extractLsb' 13 2
/-- MXCSR.FTZ, flush to zero. -/
def mxcsrFTZ (m : BitVec 32) : Bool := m.getLsbD 15
/-- The reserved bits 31:16, zero in every launch (70_reset_and_hazards.md R142). -/
def mxcsrReserved (m : BitVec 32) : BitVec 16 := m.extractLsb' 16 16

/-- Set IE if `ie`, set PE if `pe`; clear nothing (10_state.md R17, 40_vrndscalepd.md R93). -/
def setFlags (m : BitVec 32) (ie pe : Bool) : BitVec 32 :=
  m ||| (if ie then 0x00000001 else 0) ||| (if pe then 0x00000020 else 0)

/-- An unmasked SIMD floating-point condition was detected (40_vrndscalepd.md R93). -/
def unmasked (m : BitVec 32) (ie pe : Bool) : Bool := (ie && !mxcsrIM m) || (pe && !mxcsrPM m)

/-- MXCSR after an unmasked SIMD floating-point exception, the table of 60_exceptions.md R125: a single detected
condition sets its flag; of two, each flag keeps its value or becomes 1, which is left open: two free values. -/
def faultFlags (m : BitVec 32) (ie pe : Bool) (draws : Nat) : BitVec 32 :=
  if ie && pe then setFlags m (Config.freeFlag draws) (Config.freeFlag (draws + 1)) else setFlags m ie pe

/-- How many free values that takes. -/
def faultDraws (ie pe : Bool) : Nat := if ie && pe then 2 else 0

/-- The unmasked response: #XM, or #UD when CR4.OSXMMEXCPT = 0; nothing but the two flags changes
(60_exceptions.md R125, R127). -/
def simdFault (ie pe : Bool) (s : State) : Result :=
  let left := { s with mxcsr := faultFlags s.mxcsr ie pe s.draws, draws := s.draws + faultDraws ie pe }
  if s.cr4Osxmmexcpt then raise .simdException left else raise .invalidOpcode left

end Sys2Proof.Machine
end

