-- ==== Sys2Proof/Machine/Binary64.lean ====
section
/-! DEFINITION. The element format (40_vrndscalepd.md R80), the per-element function RoundToIntegerDP (R81 to
R90) in exact integer arithmetic, and beside it the rational numbers the spec's rules speak of (`val`, R80;
`RoundInt`, R83), in terms of which statements about it are made. -/

namespace Sys2Proof.Machine

/-! ### The format (R80) -/

/-- `s`, the sign bit. -/
def signOf (b : Word64) : Bool := b.getLsbD 63
/-- `e`, the biased exponent. -/
def expOf (b : Word64) : BitVec 11 := b.extractLsb' 52 11
/-- `f`, the fraction. -/
def fracOf (b : Word64) : BitVec 52 := b.extractLsb' 0 52

def isZero (b : Word64) : Bool := expOf b == 0 && fracOf b == 0
def isDenormal (b : Word64) : Bool := expOf b == 0 && fracOf b != 0
def isNormal (b : Word64) : Bool := expOf b != 0 && expOf b != 2047
def isInfinity (b : Word64) : Bool := expOf b == 2047 && fracOf b == 0
def isSNaN (b : Word64) : Bool := expOf b == 2047 && fracOf b != 0 && !(fracOf b).getLsbD 51
def isQNaN (b : Word64) : Bool := expOf b == 2047 && (fracOf b).getLsbD 51

/-- "Finite" means zero, denormal or normal (R80). -/
def isFinite (b : Word64) : Bool := expOf b != 2047

/-- The zero of a sign, `s ++ 0^63`. -/
def zeroOf (s : Bool) : Word64 := BitVec.ofBool s ++ (0 : BitVec 63)

/-- The significand of a finite element as a natural number: `f`, or `2^52 + f` for a normal one (R80). -/
def mantissa (b : Word64) : Nat := if expOf b = 0 then (fracOf b).toNat else 2 ^ 52 + (fracOf b).toNat

/-- The exponent of a finite element's last place, plus 1075: `|val(b)| = mantissa * 2^(ulpExp - 1075)` (R80, R89). -/
def ulpExp (b : Word64) : Nat := if expOf b = 0 then 1 else (expOf b).toNat

/-- The pattern of sign `s`, biased exponent `e` and fraction `f`. -/
def packed (s : Bool) (e f : Nat) : Word64 :=
  BitVec.ofBool s ++ ((BitVec.ofNat 11 e) ++ (BitVec.ofNat 52 f))

/-! ### Rounding (R81 to R90) -/

/-- The rounding direction `rd`: MXCSR.RC when `imm8[2] = 1`, else `imm8[1:0]` (R81). -/
def direction (imm8 : BitVec 8) (mxcsr : BitVec 32) : BitVec 2 :=
  if imm8.getLsbD 2 then mxcsrRC mxcsr else imm8.extractLsb' 0 2

/-- `M = imm8[7:4]`, unsigned (R81). -/
def scaleM (imm8 : BitVec 8) : Nat := (imm8.extractLsb' 4 4).toNat

/-- `imm8[3]`, SPE (30_encoding.md R65). -/
def suppressPrecision (imm8 : BitVec 8) : Bool := imm8.getLsbD 3

/-- The magnitude `|RoundInt(rd, y)|` of `y = ± m / 2^sh`, where `neg` is the sign of `y` (R83): from the quotient
and the remainder. -/
def roundMagnitude (rd : BitVec 2) (neg : Bool) (m sh : Nat) : Nat :=
  let q := m / 2 ^ sh
  let r := m % 2 ^ sh
  let up : Bool :=
    if rd = 0 then decide (2 ^ sh < 2 * r) || (decide (2 * r = 2 ^ sh) && decide (q % 2 = 1))
    else if rd = 1 then neg && decide (r ≠ 0)
    else if rd = 2 then !neg && decide (r ≠ 0)
    else false
  if up then q + 1 else q

/-- `enc(s, n * 2^-M)` for a natural number `n` of at most 53 bits (R80): the zero of sign `s`, or the normal number
whose exponent is that of `n`'s highest bit less `M` (R89). -/
def encodeScaled (s : Bool) (n M : Nat) : Word64 :=
  if n = 0 then zeroOf s
  else packed s (Nat.log2 n + 1023 - M) (n * 2 ^ (52 - Nat.log2 n) - 2 ^ 52)

/-- What `RoundToIntegerDP` returns: the element written and the two conditions (R90). -/
structure ElemResult where
  dest : Word64
  ie : Bool
  pe : Bool
  deriving DecidableEq, Repr

/-- `src'`: with MXCSR.DAZ = 1 a denormal becomes the zero of its sign (R82). -/
def afterDaz (src : Word64) (mxcsr : BitVec 32) : Word64 :=
  if mxcsrDAZ mxcsr && isDenormal src then zeroOf (signOf src) else src

/-- A finite non-zero element (R84, R87): `|x| * 2^M = m * 2^-sh`, where a non-positive `sh` says that `x` is a
multiple of `2^-M` already (R89). -/
def roundFinite (x : Word64) (imm8 : BitVec 8) (mxcsr : BitVec 32) : ElemResult :=
  let sh := 1075 - (ulpExp x + scaleM imm8)
  let n := roundMagnitude (direction imm8 mxcsr) (signOf x) (mantissa x) sh
  if sh = 0 then ⟨x, false, false⟩
  else ⟨encodeScaled (signOf x) n (scaleM imm8), false, !suppressPrecision imm8 && decide (n * 2 ^ sh ≠ mantissa x)⟩

/-- `RoundToIntegerDP(src, imm8)` (R90). -/
def roundElement (src : Word64) (imm8 : BitVec 8) (mxcsr : BitVec 32) : ElemResult :=
  let x := afterDaz src mxcsr
  if isSNaN x then ⟨x ||| 0x0008000000000000, true, false⟩
  else if isQNaN x then ⟨x, false, false⟩
  else if isInfinity x then ⟨x, false, false⟩
  else if isZero x then ⟨x, false, false⟩
  else roundFinite x imm8 mxcsr

/-! ### The numbers the rules speak of -/

/-- `val(b)` of a finite element (R80). -/
def valQ (b : Word64) : ℚ :=
  (if signOf b then -1 else 1) * (mantissa b : ℚ) * (2 : ℚ) ^ ((ulpExp b : ℤ) - 1075)

/-- The integer nearest to `y`, the even one of two equally near (R83, 00b). -/
def nearestEven (y : ℚ) : ℤ :=
  let f := ⌊y⌋
  if y - f < 1 / 2 then f
  else if 1 / 2 < y - f then f + 1
  else if f % 2 = 0 then f
  else f + 1

/-- `RoundInt(rd, y)` (R83). -/
def roundInt (rd : BitVec 2) (y : ℚ) : ℤ :=
  if rd = 0 then nearestEven y
  else if rd = 1 then ⌊y⌋
  else if rd = 2 then ⌈y⌉
  else if 0 ≤ y then ⌊y⌋ else ⌈y⌉

end Sys2Proof.Machine
end

