-- ==== Sys2Proof/Machine/Operands.lean ====
section
/-! DEFINITION. Every operand form: the effective address and its segment (20_memory.md R38), the compressed
displacement (30_encoding.md R64), the writemask (30_encoding.md R66), and the source fetch
(40_vrndscalepd.md R91). -/

namespace Sys2Proof.Machine

/-- The bytes of a full-width memory operand, `VL/8` (20_memory.md R34). -/
def fullBytes (vl : VLen) : Nat := 8 * kl vl

/-- The bytes of a broadcast operand (20_memory.md R34). -/
def bcstBytes : Nat := 8

/-- The displacement, sign-extended; an 8-bit one is multiplied by `n` (30_encoding.md R59, R64). -/
def dispValue (n : Nat) : Disp → Word64
  | .absent => 0
  | .disp8 d => d.signExtend 64 * BitVec.ofNat 64 n
  | .disp32 d => d.signExtend 64

/-- `idxval`: the index register times 2^scale, or 0 for the index number 0100b (20_memory.md R38). -/
def indexValue (s : State) (index : BitVec 4) (scale : BitVec 2) : Word64 :=
  if index = 4 then 0 else s.readX index <<< scale.toNat

/-- `EffAddr()` of 20_memory.md R38. `n` is the factor of a compressed displacement and `len` the instruction's
length, for `pc_next`. -/
def effAddr (s : State) (n len : Nat) : MemOperand → Addr
  | .base b d => s.readX b + dispValue n d
  | .rip d => s.pc + BitVec.ofNat 64 len + d.signExtend 64
  | .sib b index scale d => s.readX b + indexValue s index scale + dispValue n d
  | .sibNoBase index scale d => indexValue s index scale + d.signExtend 64

/-- The default segment is SS: a base register is used and it is RSP or RBP (20_memory.md R38). -/
def usesStackSegment : MemOperand → Bool
  | .base b _ => b == 4 || b == 5
  | .rip _ => false
  | .sib b _ _ _ => b == 4 || b == 5
  | .sibNoBase _ _ _ => false

/-- `enabled(j)`: no writemask, or bit `j` of the opmask register is 1 (40_vrndscalepd.md R92). -/
def enabled (s : State) (k : Mask) (j : Fin 8) : Bool := k.aaa == 0 || (s.readK k.aaa).getLsbD j.val

/-- Ask `Translate` for the whole operand, then hand its address on (20_memory.md R36, R46); the fault for a
non-canonical address depends on the default segment (60_exceptions.md R123). -/
def withOperand (s : State) (ss : Bool) (a : Addr) (n : Nat) (body : Result) : Result :=
  match translateAccess s.xlat a n .dataRead with
  | .allow => body
  | .nonCanonical => if ss then raise .stackFault s else raise .generalProtection s
  | .pageFault code addr => raise (.pageFault code addr) s
  | .sideEffects => .refused .sideEffectingRead

/-- The 8 bytes at `a`, `MemRead(a, 8)` (20_memory.md R31). -/
def readQword (s : State) (a : Addr) : Word64 := memBits s.mem a 8

/-- `TMP_SRC` of a full-width memory source: element `j` is the 8 bytes at `a + 8j` (20_memory.md R32); above VL
there is nothing. -/
def loadFull (s : State) (vl : VLen) (a : Addr) : Zmm :=
  mkLanes fun j => if j.val < kl vl then readQword s (a + BitVec.ofNat 64 (8 * j.val)) else 0

/-- `TMP_SRC` of a broadcast source: every element is the 8 bytes at `a` (20_memory.md R32). -/
def loadBcst (s : State) (vl : VLen) (a : Addr) : Zmm :=
  mkLanes fun j => if j.val < kl vl then readQword s a else 0

end Sys2Proof.Machine
end

