-- ==== Sys2Proof/Machine/Vrndscalepd.lean ====
section
/-! DEFINITION. The meanings of the ten forms of VRNDSCALEPD (40_vrndscalepd.md R91 to R97, R100 to R109). -/

namespace Sys2Proof.Machine

/-- Some enabled element below KL satisfies `p`. -/
def anyEnabled (s : State) (vl : VLen) (k : Mask) (p : Fin 8 → Bool) : Bool :=
  anyLane fun j => decide (j.val < kl vl) && enabled s k j && p j

/-- `IEany` (40_vrndscalepd.md R93). -/
def ieAny (s : State) (vl : VLen) (k : Mask) (imm8 : BitVec 8) (tmp : Zmm) : Bool :=
  anyEnabled s vl k fun j => (roundElement (lane tmp j) imm8 s.mxcsr).ie

/-- `PEany` (40_vrndscalepd.md R93). -/
def peAny (s : State) (vl : VLen) (k : Mask) (imm8 : BitVec 8) (tmp : Zmm) : Bool :=
  anyEnabled s vl k fun j => (roundElement (lane tmp j) imm8 s.mxcsr).pe

/-- `NEW`, the destination register's new value (40_vrndscalepd.md R92): rounded elements where enabled, the old
element or zero where not, and zero from VL up. -/
def newDest (s : State) (vl : VLen) (dst : BitVec 5) (k : Mask) (imm8 : BitVec 8) (tmp : Zmm) : Zmm :=
  mkLanes fun j =>
    if j.val < kl vl then
      if enabled s k j then (roundElement (lane tmp j) imm8 s.mxcsr).dest
      else if k.z then 0
      else lane (s.readZmm dst) j
    else 0

/-- The instruction completes: the MXCSR flags, the destination and `pc` together (40_vrndscalepd.md R93, R95, R96). -/
def complete (s : State) (dst : BitVec 5) (new : Zmm) (ie pe : Bool) (len : Nat) : Result :=
  advance len { s.writeZmm dst new with mxcsr := setFlags s.mxcsr ie pe }

/-- From `TMP_SRC` to the end of 40_vrndscalepd.md R97, with the exception conditions reported. -/
def roundInto (s : State) (vl : VLen) (dst : BitVec 5) (k : Mask) (imm8 : BitVec 8) (len : Nat) (tmp : Zmm) : Result :=
  let ie := ieAny s vl k imm8 tmp
  let pe := peAny s vl k imm8 tmp
  if unmasked s.mxcsr ie pe then simdFault ie pe s
  else complete s dst (newDest s vl dst k imm8 tmp) ie pe len

/-- The same under `{sae}`: no condition is reported (40_vrndscalepd.md R94). -/
def roundIntoSae (s : State) (vl : VLen) (dst : BitVec 5) (k : Mask) (imm8 : BitVec 8) (len : Nat) (tmp : Zmm) : Result :=
  complete s dst (newDest s vl dst k imm8 tmp) false false len

/-- A register source, `kind = REG`. -/
def execReg (vl : VLen) (dst src : BitVec 5) (k : Mask) (imm8 : BitVec 8) (s : State) : Result :=
  gated vl s (roundInto s vl dst k imm8 regLength (lowLanes vl (s.readZmm src)))

/-- A full-width memory source, `kind = MEM`. -/
def execMem (vl : VLen) (dst : BitVec 5) (m : MemOperand) (k : Mask) (imm8 : BitVec 8) (s : State) : Result :=
  let a := effAddr s (fullBytes vl) (memLength m) m
  gated vl s (withOperand s (usesStackSegment m) a (fullBytes vl)
    (roundInto s vl dst k imm8 (memLength m) (loadFull s vl a)))

/-- A broadcast source, `kind = BCST`. -/
def execBcst (vl : VLen) (dst : BitVec 5) (m : MemOperand) (k : Mask) (imm8 : BitVec 8) (s : State) : Result :=
  let a := effAddr s bcstBytes (memLength m) m
  gated vl s (withOperand s (usesStackSegment m) a bcstBytes
    (roundInto s vl dst k imm8 (memLength m) (loadBcst s vl a)))

/-- 40_vrndscalepd.md R100. -/
def execXmmReg (dst src : BitVec 5) (mask : Mask) (imm8 : BitVec 8) (s : State) : Result :=
  execReg .v128 dst src mask imm8 s

/-- 40_vrndscalepd.md R101. -/
def execXmmMem (dst : BitVec 5) (mem : MemOperand) (mask : Mask) (imm8 : BitVec 8) (s : State) : Result :=
  execMem .v128 dst mem mask imm8 s

/-- 40_vrndscalepd.md R102. -/
def execXmmBcst (dst : BitVec 5) (mem : MemOperand) (mask : Mask) (imm8 : BitVec 8) (s : State) : Result :=
  execBcst .v128 dst mem mask imm8 s

/-- 40_vrndscalepd.md R103. -/
def execYmmReg (dst src : BitVec 5) (mask : Mask) (imm8 : BitVec 8) (s : State) : Result :=
  execReg .v256 dst src mask imm8 s

/-- 40_vrndscalepd.md R104. -/
def execYmmMem (dst : BitVec 5) (mem : MemOperand) (mask : Mask) (imm8 : BitVec 8) (s : State) : Result :=
  execMem .v256 dst mem mask imm8 s

/-- 40_vrndscalepd.md R105. -/
def execYmmBcst (dst : BitVec 5) (mem : MemOperand) (mask : Mask) (imm8 : BitVec 8) (s : State) : Result :=
  execBcst .v256 dst mem mask imm8 s

/-- 40_vrndscalepd.md R106. -/
def execZmmReg (dst src : BitVec 5) (mask : Mask) (imm8 : BitVec 8) (s : State) : Result :=
  execReg .v512 dst src mask imm8 s

/-- 40_vrndscalepd.md R107. -/
def execZmmMem (dst : BitVec 5) (mem : MemOperand) (mask : Mask) (imm8 : BitVec 8) (s : State) : Result :=
  execMem .v512 dst mem mask imm8 s

/-- 40_vrndscalepd.md R108. -/
def execZmmBcst (dst : BitVec 5) (mem : MemOperand) (mask : Mask) (imm8 : BitVec 8) (s : State) : Result :=
  execBcst .v512 dst mem mask imm8 s

/-- 40_vrndscalepd.md R109. -/
def execZmmSae (dst src : BitVec 5) (mask : Mask) (imm8 : BitVec 8) (s : State) : Result :=
  gated .v512 s (roundIntoSae s .v512 dst mask imm8 regLength (lowLanes .v512 (s.readZmm src)))

end Sys2Proof.Machine
end

