-- ==== Sys2Proof/Machine/Dispatch.lean ====
section
/-! DEFINITION. One arm per constructor of `Instr`, each one call of its meaning. -/

namespace Sys2Proof.Machine

def exec (i : Instr) (s : State) : Host.Outcome State Fault Refusal :=
  match i with
  | .vrndscalepdXmmReg dst src mask imm8 => Sys2Proof.Machine.execXmmReg dst src mask imm8 s
  | .vrndscalepdXmmMem dst mem mask imm8 => Sys2Proof.Machine.execXmmMem dst mem mask imm8 s
  | .vrndscalepdXmmBcst dst mem mask imm8 => Sys2Proof.Machine.execXmmBcst dst mem mask imm8 s
  | .vrndscalepdYmmReg dst src mask imm8 => Sys2Proof.Machine.execYmmReg dst src mask imm8 s
  | .vrndscalepdYmmMem dst mem mask imm8 => Sys2Proof.Machine.execYmmMem dst mem mask imm8 s
  | .vrndscalepdYmmBcst dst mem mask imm8 => Sys2Proof.Machine.execYmmBcst dst mem mask imm8 s
  | .vrndscalepdZmmReg dst src mask imm8 => Sys2Proof.Machine.execZmmReg dst src mask imm8 s
  | .vrndscalepdZmmMem dst mem mask imm8 => Sys2Proof.Machine.execZmmMem dst mem mask imm8 s
  | .vrndscalepdZmmBcst dst mem mask imm8 => Sys2Proof.Machine.execZmmBcst dst mem mask imm8 s
  | .vrndscalepdZmmSae dst src mask imm8 => Sys2Proof.Machine.execZmmSae dst src mask imm8 s

end Sys2Proof.Machine
end

