-- ==== Sys2Proof/Machine/Step.lean ====
section
/-! DEFINITION. One step of the machine (40_vrndscalepd.md R97), and the host's way of placing an instruction. -/

namespace Sys2Proof.Machine

/-- Fetch, decode and execute one instruction. Bytes are decoded in 64-bit mode only (92_eei_decisions.md D3). -/
def step (s : State) : Host.Outcome State Fault Refusal :=
  if s.mode ≠ .bits64 then .refused .modeNotAdmitted
  else
    match decode s.saeAnyLL s.fetch.1 with
    | .form i _ => exec i s
    | .ud => raise .invalidOpcode s
    | .refusedLegacyPrefix => .refused .legacyPrefix
    | .refusedSaeLength => .refused .saeWithNon512Length
    | .notThisInstruction => .refused .notThisInstruction
    | .short => fetchFault s.fetch s

/-- `s` with an instruction's bytes where the next step fetches: at `pc`, after the boot of 70_reset_and_hazards.md
R141 where the machine is not yet in 64-bit mode (log entry 1), and with the fetch allowed where `Translate`
would stop it. -/
def State.withFetchWord (s : State) (nbits w : Nat) : State :=
  launched s (bytesOfTableWord nbits w)

end Sys2Proof.Machine
end

