-- ==== Sys2Proof/Safety.lean ====
section
/-! DEFINITION. The words the statements use: the launch premises of 70_reset_and_hazards.md R142, what a completed
instruction has done and left alone, the invariant of the machine, and what counts as a safe run (R145). -/

namespace Sys2Proof.Machine

/-! ### What an instruction's fields are -/

/-- The vector length of a form (30_encoding.md R70). -/
def vlenOf : Instr → VLen
  | .vrndscalepdXmmReg _ _ _ _ => .v128
  | .vrndscalepdXmmMem _ _ _ _ => .v128
  | .vrndscalepdXmmBcst _ _ _ _ => .v128
  | .vrndscalepdYmmReg _ _ _ _ => .v256
  | .vrndscalepdYmmMem _ _ _ _ => .v256
  | .vrndscalepdYmmBcst _ _ _ _ => .v256
  | .vrndscalepdZmmReg _ _ _ _ => .v512
  | .vrndscalepdZmmMem _ _ _ _ => .v512
  | .vrndscalepdZmmBcst _ _ _ _ => .v512
  | .vrndscalepdZmmSae _ _ _ _ => .v512

/-- The writemask operand of a form. -/
def maskOf : Instr → Mask
  | .vrndscalepdXmmReg _ _ k _ => k
  | .vrndscalepdXmmMem _ _ k _ => k
  | .vrndscalepdXmmBcst _ _ k _ => k
  | .vrndscalepdYmmReg _ _ k _ => k
  | .vrndscalepdYmmMem _ _ k _ => k
  | .vrndscalepdYmmBcst _ _ k _ => k
  | .vrndscalepdZmmReg _ _ k _ => k
  | .vrndscalepdZmmMem _ _ k _ => k
  | .vrndscalepdZmmBcst _ _ k _ => k
  | .vrndscalepdZmmSae _ _ k _ => k

/-- The immediate byte of a form. -/
def immOf : Instr → BitVec 8
  | .vrndscalepdXmmReg _ _ _ i => i
  | .vrndscalepdXmmMem _ _ _ i => i
  | .vrndscalepdXmmBcst _ _ _ i => i
  | .vrndscalepdYmmReg _ _ _ i => i
  | .vrndscalepdYmmMem _ _ _ i => i
  | .vrndscalepdYmmBcst _ _ _ i => i
  | .vrndscalepdZmmReg _ _ _ i => i
  | .vrndscalepdZmmMem _ _ _ i => i
  | .vrndscalepdZmmBcst _ _ _ i => i
  | .vrndscalepdZmmSae _ _ _ i => i

/-- The form is the `{sae}` form. -/
def isSae : Instr → Bool
  | .vrndscalepdZmmSae _ _ _ _ => true
  | _ => false

/-- The destination register number of a form. -/
def dstOf : Instr → BitVec 5
  | .vrndscalepdXmmReg d _ _ _ => d
  | .vrndscalepdXmmMem d _ _ _ => d
  | .vrndscalepdXmmBcst d _ _ _ => d
  | .vrndscalepdYmmReg d _ _ _ => d
  | .vrndscalepdYmmMem d _ _ _ => d
  | .vrndscalepdYmmBcst d _ _ _ => d
  | .vrndscalepdZmmReg d _ _ _ => d
  | .vrndscalepdZmmMem d _ _ _ => d
  | .vrndscalepdZmmBcst d _ _ _ => d
  | .vrndscalepdZmmSae d _ _ _ => d

/-- The memory operand of a form. -/
def memOf : Instr → Option MemOperand
  | .vrndscalepdXmmReg _ _ _ _ => none
  | .vrndscalepdXmmMem _ m _ _ => some m
  | .vrndscalepdXmmBcst _ m _ _ => some m
  | .vrndscalepdYmmReg _ _ _ _ => none
  | .vrndscalepdYmmMem _ m _ _ => some m
  | .vrndscalepdYmmBcst _ m _ _ => some m
  | .vrndscalepdZmmReg _ _ _ _ => none
  | .vrndscalepdZmmMem _ m _ _ => some m
  | .vrndscalepdZmmBcst _ m _ _ => some m
  | .vrndscalepdZmmSae _ _ _ _ => none

/-- A memory operand has no index field, so the stored X bit has no effect (20_memory.md R38). -/
def ignoresX : MemOperand → Bool
  | .base _ _ => true
  | .rip _ => true
  | .sib _ _ _ _ => false
  | .sibNoBase _ _ _ => false

/-- A memory operand has no base register, so the stored B bit has no effect (20_memory.md R38). -/
def ignoresB : MemOperand → Bool
  | .base _ _ => false
  | .rip _ => true
  | .sib _ _ _ _ => false
  | .sibNoBase _ _ _ => true

/-- Bit `b` of byte `n` of an instruction has no effect on what it decodes to: P0[6] without an index, P0[5] without a
base (20_memory.md R38), and L'L of `{sae}` when `sae_any_LL` is on (30_encoding.md R63). -/
def ignoredBit (saeAnyLL : Bool) (i : Instr) (n b : Nat) : Bool :=
  (n == 1 && b == 6 && (memOf i).any ignoresX) || (n == 1 && b == 5 && (memOf i).any ignoresB) ||
    (n == 3 && (b == 5 || b == 6) && saeAnyLL && isSae i)

/-- The address of a full-width memory operand (20_memory.md R38 with the `N` of 30_encoding.md R64). -/
abbrev fullAddr (vl : VLen) (m : MemOperand) (s : State) : Addr := effAddr s (fullBytes vl) (memLength m) m

/-- The address of a broadcast operand. -/
abbrev bcstAddr (m : MemOperand) (s : State) : Addr := effAddr s bcstBytes (memLength m) m

/-- Element `j` of a full-width memory operand, the 8 bytes at `a + 8j` (20_memory.md R32). -/
def fullElement (s : State) (a : Addr) (j : Fin 8) : Word64 := readQword s (a + BitVec.ofNat 64 (8 * j.val))

/-- The source element that each form rounds into element `j` (40_vrndscalepd.md R91). -/
def sourceOf (s : State) : Instr → Fin 8 → Word64
  | .vrndscalepdXmmReg _ src _ _ => lane (s.readZmm src)
  | .vrndscalepdXmmMem _ m _ _ => fullElement s (fullAddr .v128 m s)
  | .vrndscalepdXmmBcst _ m _ _ => fun _ => readQword s (bcstAddr m s)
  | .vrndscalepdYmmReg _ src _ _ => lane (s.readZmm src)
  | .vrndscalepdYmmMem _ m _ _ => fullElement s (fullAddr .v256 m s)
  | .vrndscalepdYmmBcst _ m _ _ => fun _ => readQword s (bcstAddr m s)
  | .vrndscalepdZmmReg _ src _ _ => lane (s.readZmm src)
  | .vrndscalepdZmmMem _ m _ _ => fullElement s (fullAddr .v512 m s)
  | .vrndscalepdZmmBcst _ m _ _ => fun _ => readQword s (bcstAddr m s)
  | .vrndscalepdZmmSae _ src _ _ => lane (s.readZmm src)

/-- The memory operand of a form: its address, its bytes (20_memory.md R34), and whether its default segment is SS. -/
def operandOf (s : State) : Instr → Option (Addr × Nat × Bool)
  | .vrndscalepdXmmReg _ _ _ _ => none
  | .vrndscalepdXmmMem _ m _ _ => some (fullAddr .v128 m s, fullBytes .v128, usesStackSegment m)
  | .vrndscalepdXmmBcst _ m _ _ => some (bcstAddr m s, bcstBytes, usesStackSegment m)
  | .vrndscalepdYmmReg _ _ _ _ => none
  | .vrndscalepdYmmMem _ m _ _ => some (fullAddr .v256 m s, fullBytes .v256, usesStackSegment m)
  | .vrndscalepdYmmBcst _ m _ _ => some (bcstAddr m s, bcstBytes, usesStackSegment m)
  | .vrndscalepdZmmReg _ _ _ _ => none
  | .vrndscalepdZmmMem _ m _ _ => some (fullAddr .v512 m s, fullBytes .v512, usesStackSegment m)
  | .vrndscalepdZmmBcst _ m _ _ => some (bcstAddr m s, bcstBytes, usesStackSegment m)
  | .vrndscalepdZmmSae _ _ _ _ => none

/-! ### Launch premises (70_reset_and_hazards.md R142) -/

/-- `Mode64`, `OsEnabled`, `Features(form)` and `NoTS` together: the instruction gets past every check that comes
before its operand is read. -/
abbrev Ready (vl : VLen) (s : State) : Prop :=
  s.mode = .bits64 ∧ s.osEnabled = true ∧ s.featureOk vl = true ∧ s.cr0Ts = false

/-- `MxcsrReservedZero`. -/
abbrev MxcsrReservedZero (s : State) : Prop := mxcsrReserved s.mxcsr = 0

/-- `CodeAt(base, bytes)`: the bytes stand in memory from `base` on and may be fetched. -/
abbrev CodeAt (base : Addr) (bs : List Byte) (s : State) : Prop :=
  ∀ i, i < bs.length → s.readByte (base + BitVec.ofNat 64 i) = bs.getD i 0 ∧
    translateAccess s.xlat (base + BitVec.ofNat 64 i) 1 .fetch = .allow

/-- `Readable(a, n)`. -/
abbrev Readable (a : Addr) (n : Nat) (s : State) : Prop := translateAccess s.xlat a n .dataRead = .allow

/-- `pc + len` stays in range: it does not wrap and is not a non-canonical address (10_state.md R12). -/
abbrev NextPcInRange (len : Nat) (s : State) : Prop :=
  s.pc.toNat + len < 2 ^ 64 ∧ translateAccess s.xlat (s.pc + BitVec.ofNat 64 len) 1 .fetch ≠ .nonCanonical

/-- Element `j` exists at this vector length and the writemask enables it (40_vrndscalepd.md R92). -/
abbrev On (s : State) (vl : VLen) (k : Mask) (j : Fin 8) : Prop := j.val < kl vl ∧ enabled s k j = true

/-- No enabled element of the source `e` raises an unmasked condition (40_vrndscalepd.md R93). -/
abbrev NoneUnmasked (s : State) (vl : VLen) (k : Mask) (imm8 : BitVec 8) (e : Fin 8 → Word64) : Prop :=
  (mxcsrIM s.mxcsr = true ∨ ∀ j, On s vl k j → isSNaN (e j) = false) ∧
  (mxcsrPM s.mxcsr = true ∨ ∀ j, On s vl k j → (roundElement (e j) imm8 s.mxcsr).pe = false)

/-! ### What a completed instruction has done, and what it has left -/

/-- The destination register after the instruction, element by element (40_vrndscalepd.md R92). -/
def Written (s t : State) (vl : VLen) (dst : BitVec 5) (k : Mask) (imm8 : BitVec 8) (e : Fin 8 → Word64) : Prop :=
  ∀ j : Fin 8, lane (t.readZmm dst) j =
    if j.val < kl vl then
      if enabled s k j = true then (roundElement (e j) imm8 s.mxcsr).dest
      else if k.z = true then 0
      else lane (s.readZmm dst) j
    else 0

/-- MXCSR after the instruction: IE and PE are set where an enabled element has the condition, nothing is cleared and
no other bit changes (40_vrndscalepd.md R93, R110). -/
def FlagsCollected (s t : State) (vl : VLen) (k : Mask) (imm8 : BitVec 8) (e : Fin 8 → Word64) : Prop :=
  (mxcsrIE t.mxcsr = true ↔ mxcsrIE s.mxcsr = true ∨ ∃ j, On s vl k j ∧ isSNaN (e j) = true) ∧
  (mxcsrPE t.mxcsr = true ↔ mxcsrPE s.mxcsr = true ∨ ∃ j, On s vl k j ∧ (roundElement (e j) imm8 s.mxcsr).pe = true) ∧
  ∀ b, b ≠ 0 → b ≠ 5 → t.mxcsr.getLsbD b = s.mxcsr.getLsbD b

/-- Everything but vector registers, MXCSR, `pc` and the draw counter is unchanged: opmasks, general registers,
RFLAGS, every byte of memory, the mode, the control state and the configuration. -/
def OthersUnchanged (s t : State) : Prop :=
  t.k = s.k ∧ t.x = s.x ∧ t.rflags = s.rflags ∧ (∀ a, t.readByte a = s.readByte a) ∧ t.mode = s.mode ∧
  t.csBase = s.csBase ∧ t.cr0Ts = s.cr0Ts ∧ t.cr4Osxsave = s.cr4Osxsave ∧ t.cr4Osxmmexcpt = s.cr4Osxmmexcpt ∧
  t.xcr0 = s.xcr0 ∧ t.cpuid = s.cpuid ∧ t.saeAnyLL = s.saeAnyLL ∧ t.xlat = s.xlat

/-- The frame of every form: no vector register but the destination changes, no free value is drawn, and
`OthersUnchanged`. -/
def Framed (s t : State) (dst : BitVec 5) : Prop :=
  (∀ r, r ≠ dst → t.readZmm r = s.readZmm r) ∧ t.draws = s.draws ∧ OthersUnchanged s t

/-- The outcome `r` is the unmasked response of 60_exceptions.md R125 to the conditions of the source `e`: #XM, or #UD when
CR4.OSXMMEXCPT = 0; one detected condition sets its flag; of two, each flag keeps its value or becomes 1; nothing else
of the machine changes (R127). -/
def RaisesSimd (s : State) (vl : VLen) (k : Mask) (imm8 : BitVec 8) (e : Fin 8 → Word64) (r : Result) : Prop :=
  ∃ left, r = .fault (if s.cr4Osxmmexcpt then .simdException left else .invalidOpcode left) ∧
    ((∃ j, On s vl k j ∧ isSNaN (e j) = true) → (∀ j, On s vl k j → (roundElement (e j) imm8 s.mxcsr).pe = false) →
      mxcsrIE left.mxcsr = true ∧ mxcsrPE left.mxcsr = mxcsrPE s.mxcsr) ∧
    ((∃ j, On s vl k j ∧ (roundElement (e j) imm8 s.mxcsr).pe = true) → (∀ j, On s vl k j → isSNaN (e j) = false) →
      mxcsrPE left.mxcsr = true ∧ mxcsrIE left.mxcsr = mxcsrIE s.mxcsr) ∧
    (mxcsrIE s.mxcsr = true → mxcsrIE left.mxcsr = true) ∧
    (mxcsrPE s.mxcsr = true → mxcsrPE left.mxcsr = true) ∧
    (∀ b, b ≠ 0 → b ≠ 5 → left.mxcsr.getLsbD b = s.mxcsr.getLsbD b) ∧
    left.zmm = s.zmm ∧ left.pc = s.pc ∧ OthersUnchanged s left

/-- The outcomes `r` of a machine with MXCSR = `m` and `r'` of one with `m'` are the same, and both machines have set the same of
the flags IE and PE and changed nothing else of MXCSR. -/
def SameFlagsSet (m m' : BitVec 32) (r r' : Result) : Prop :=
  match r with
  | .next t => ∃ ie pe : Bool, t.mxcsr = setFlags m ie pe ∧ r' = .next { t with mxcsr := setFlags m' ie pe }
  | .fault f => ∃ (f' : Fault) (ie pe : Bool), f.left.mxcsr = setFlags m ie pe ∧ r' = .fault f' ∧ f'.vector = f.vector ∧
      f'.errorCode = f.errorCode ∧ f'.recordedAddress = f.recordedAddress ∧
      f'.left = { f.left with mxcsr := setFlags m' ie pe }
  | .refused q => r' = .refused q

/-! ### The invariant -/

/-- The memory is in its canonical form; MXCSR's reserved bits are zero (70_reset_and_hazards.md R142); and in 64-bit
mode the code segment's base is zero (20_memory.md R38). -/
abbrev Inv (s : State) : Prop :=
  Memory.wf s.mem = true ∧ MxcsrReservedZero s ∧ (s.mode = .bits64 → s.csBase = 0)

/-! ### Runs (70_reset_and_hazards.md R145) -/

/-- A run from `s` reaches `endPc` within `fuel` steps, no step of it a fault or a refusal. -/
def finishes (endPc : Addr) : Nat → State → Bool
  | 0, s => decide (s.pc = endPc)
  | n + 1, s =>
    decide (s.pc = endPc) ||
      match step s with
      | .next t => finishes endPc n t
      | .fault _ => false
      | .refused _ => false

/-- The state after exactly `n` steps, if none of them is a fault or a refusal. -/
def runFor : Nat → State → Option State
  | 0, s => some s
  | n + 1, s =>
    match step s with
    | .next t => runFor n t
    | .fault _ => none
    | .refused _ => none

/-- The state after the instructions of a program one after another, each by `exec`, if each answers a next state. -/
def execAll : List Instr → State → Option State
  | [], s => some s
  | i :: rest, s =>
    match exec i s with
    | .next t => execAll rest t
    | .fault _ => none
    | .refused _ => none

/-- The bytes of a program, its instructions laid out consecutively (70_reset_and_hazards.md R145). -/
def programBytes (prog : List Instr) : List Byte := prog.flatMap encode

/-- One step is safe: it is neither a fault nor a refusal. -/
def SafeStep (s : State) : Prop := ∃ t, step s = .next t

end Sys2Proof.Machine
end

