-- ==== Sys2Proof/Certificates/Slice0/Obligations.lean ====
section
/-! DEFINITION. The statements for the provers. "Derived" in a docstring says what of the spec a statement rests on
where the spec marks the rule as general knowledge or as a decision of its own. -/

open Sys2Proof Sys2Proof.Machine

/-! ### Encoding -/

/-- The example words of 40_vrndscalepd.md R100 to R109 decode to the forms those rules give them. -/
def Obligations.ExampleWordsDecodeToTheirForms : Prop :=
  decode false [0x62, 0xF3, 0xFD, 0x08, 0x09, 0xCA, 0x01] = .form (.vrndscalepdXmmReg 1 2 ⟨0, false⟩ 0x01) 7 ∧
  decode false [0x62, 0xF3, 0xFD, 0x09, 0x09, 0x18, 0x12] =
    .form (.vrndscalepdXmmMem 3 (.base 0 .absent) ⟨1, false⟩ 0x12) 7 ∧
  decode false [0x62, 0xF3, 0xFD, 0x9A, 0x09, 0x08, 0x00] =
    .form (.vrndscalepdXmmBcst 1 (.base 0 .absent) ⟨2, true⟩ 0x00) 7 ∧
  decode false [0x62, 0xC3, 0xFD, 0x28, 0x09, 0xC9, 0x0B] = .form (.vrndscalepdYmmReg 17 9 ⟨0, false⟩ 0x0B) 7 ∧
  decode false [0x62, 0xF3, 0xFD, 0x28, 0x09, 0x4B, 0x02, 0x02] =
    .form (.vrndscalepdYmmMem 1 (.base 3 (.disp8 0x02)) ⟨0, false⟩ 0x02) 8 ∧
  decode false [0x62, 0xF3, 0xFD, 0x3F, 0x09, 0x15, 0x00, 0x01, 0x00, 0x00, 0x04] =
    .form (.vrndscalepdYmmBcst 2 (.rip 0x100) ⟨7, false⟩ 0x04) 11 ∧
  decode false [0x62, 0xF3, 0xFD, 0x48, 0x09, 0xCA, 0x03] = .form (.vrndscalepdZmmReg 1 2 ⟨0, false⟩ 0x03) 7 ∧
  decode false [0x62, 0xF3, 0xFD, 0x48, 0x09, 0x84, 0xCE, 0x00, 0x10, 0x00, 0x00, 0x09] =
    .form (.vrndscalepdZmmMem 0 (.sib 6 1 3 (.disp32 0x1000)) ⟨0, false⟩ 0x09) 12 ∧
  decode false [0x62, 0xF3, 0xFD, 0xD9, 0x09, 0x48, 0x01, 0x13] =
    .form (.vrndscalepdZmmBcst 1 (.base 0 (.disp8 0x01)) ⟨1, true⟩ 0x13) 8 ∧
  decode false [0x62, 0xF3, 0xFD, 0x58, 0x09, 0xCA, 0x03] = .form (.vrndscalepdZmmSae 1 2 ⟨0, false⟩ 0x03) 7

/-- Decoding the bytes of a well-formed instruction, whatever stands after them, gives that instruction and its length,
for either value of `sae_any_LL`. -/
def Obligations.DecodeOfEncodeIsTheInstruction : Prop :=
  ∀ (saeAnyLL : Bool) (i : Instr) (rest : List Byte), i.wf = true →
    decode saeAnyLL (encode i ++ rest) = .form i i.length

/-- What the decoder accepts is well-formed, has the length of 30_encoding.md R50, between 7 and 12 bytes, and stands whole in
the bytes given. -/
def Obligations.DecodedFormsAreWellFormed : Prop :=
  ∀ (saeAnyLL : Bool) (bytes : List Byte) (i : Instr) (len : Nat), decode saeAnyLL bytes = .form i len →
    i.wf = true ∧ len = i.length ∧ 7 ≤ len ∧ len ≤ 12 ∧ len ≤ bytes.length

/-- The decoder needs all `len` bytes of an instruction and none beyond (20_memory.md R45): the first `len` bytes alone decode
to it, and fewer decode to nothing. -/
def Obligations.DecoderReadsExactlyTheInstruction : Prop :=
  ∀ (saeAnyLL : Bool) (bytes : List Byte) (i : Instr) (len : Nat), decode saeAnyLL bytes = .form i len →
    decode saeAnyLL (bytes.take len) = .form i len ∧ ∀ n, n < len → decode saeAnyLL (bytes.take n) = .short

/-- Bytes that are VRNDSCALEPD's but for EVEX.vvvv other than 1111b, or EVEX.V' stored 0, raise #UD (derived: 30_encoding.md R67, of
which the vvvv clause is the source's and the V' clause the spec's decision D12). -/
def Obligations.ReservedVvvvOrVPrimeRaisesInvalidOpcode : Prop :=
  ∀ (s : State) (p0 p1 p2 : Byte), s.mode = .bits64 → CodeAt s.pc [0x62, p0, p1, p2, 0x09] s → s.pc.toNat + 5 ≤ 2 ^ 64 →
    p0.extractLsb' 0 4 = 3 → p1.getLsbD 7 = true → p1.extractLsb' 0 2 = 1 →
    (p1.extractLsb' 3 4 ≠ 15 ∨ p2.getLsbD 3 = false) →
    step s = .fault (.invalidOpcode s)

/-- The illegal field values of 30_encoding.md R68, rows 1, 2 and 5 to 7, in bytes that are otherwise VRNDSCALEPD's (derived: the
spec's decisions D13, D14, D15, D31). -/
def Obligations.ReservedFieldsAreNotDecoded : Prop :=
  ∀ (saeAnyLL : Bool) (p0 p1 p2 modrm : Byte) (rest : List Byte), p0.extractLsb' 0 2 = 3 →
    p1.getLsbD 7 = true → p1.extractLsb' 0 2 = 1 →
    (p0.extractLsb' 2 2 ≠ 0 → decode saeAnyLL (0x62 :: p0 :: p1 :: p2 :: 0x09 :: modrm :: rest) = .notThisInstruction) ∧
    (p0.extractLsb' 2 2 = 0 → p1.getLsbD 2 = false →
      decode saeAnyLL (0x62 :: p0 :: p1 :: p2 :: 0x09 :: modrm :: rest) = .ud) ∧
    (p0.extractLsb' 2 2 = 0 → p1 = 0xFD → p2.getLsbD 3 = true →
      (p2.getLsbD 7 = true → p2.extractLsb' 0 3 = 0 →
        decode saeAnyLL (0x62 :: p0 :: p1 :: p2 :: 0x09 :: modrm :: rest) = .ud) ∧
      (¬ (p2.getLsbD 7 = true ∧ p2.extractLsb' 0 3 = 0) → p2.getLsbD 4 = true → p2.extractLsb' 5 2 ≠ 2 →
        modrm.extractLsb' 6 2 = 3 → saeAnyLL = false →
        decode saeAnyLL (0x62 :: p0 :: p1 :: p2 :: 0x09 :: modrm :: rest) = .refusedSaeLength) ∧
      (¬ (p2.getLsbD 7 = true ∧ p2.extractLsb' 0 3 = 0) → p2.extractLsb' 5 2 = 3 →
        (p2.getLsbD 4 = false ∨ modrm.extractLsb' 6 2 ≠ 3) →
        decode saeAnyLL (0x62 :: p0 :: p1 :: p2 :: 0x09 :: modrm :: rest) = .ud))

/-- The `NotThisInstruction` answers of 30_encoding.md R69 (derived): a first byte that is neither 62h nor a prefix of R58; a prefix of
the #UD kind before another byte than 62h; and after 62h an opcode map other than 11b, reserved bits P0[3:2] other than 00b,
W = 0, pp other than 01b, or an opcode byte other than 09h, whatever the other bytes hold. -/
def Obligations.OtherBytesAreNotThisInstruction : Prop :=
  ∀ (saeAnyLL : Bool) (rest : List Byte),
    (∀ b0 : Byte, b0 ≠ 0x62 → b0 ∉ ([0x26, 0x2E, 0x36, 0x3E, 0x64, 0x65, 0x67, 0x66, 0xF2, 0xF3, 0xF0] : List Byte) →
      ¬ (0x40 ≤ b0.toNat ∧ b0.toNat ≤ 0x4F) → decode saeAnyLL (b0 :: rest) = .notThisInstruction) ∧
    (∀ b0 b1 : Byte, (b0 = 0x66 ∨ b0 = 0xF2 ∨ b0 = 0xF3 ∨ b0 = 0xF0 ∨ (0x40 ≤ b0.toNat ∧ b0.toNat ≤ 0x4F)) → b1 ≠ 0x62 →
      decode saeAnyLL (b0 :: b1 :: rest) = .notThisInstruction) ∧
    (∀ p0 p1 p2 op : Byte, p0.extractLsb' 0 2 ≠ 3 ∨ p0.extractLsb' 2 2 ≠ 0 ∨ p1.getLsbD 7 = false ∨
        p1.extractLsb' 0 2 ≠ 1 ∨ op ≠ 0x09 →
      decode saeAnyLL (0x62 :: p0 :: p1 :: p2 :: op :: rest) = .notThisInstruction)

/-- The other direction of the round trip: bytes that decode to an instruction are, as far as its length goes, its encoding, but
for the bits that have no effect on that form (derived: 30_encoding.md R69, 20_memory.md R38; log entry 16). -/
def Obligations.DecodedBytesAreTheEncoding : Prop :=
  ∀ (saeAnyLL : Bool) (bytes : List Byte) (i : Instr) (len : Nat), decode saeAnyLL bytes = .form i len →
    len = (encode i).length ∧ len ≤ bytes.length ∧
    ∀ n b, n < len → ignoredBit saeAnyLL i n b = false → (bytes.getD n 0).getLsbD b = ((encode i).getD n 0).getLsbD b

/-- With `sae_any_LL` on, a register source with EVEX.b = 1 is the 512-bit `{sae}` form whatever L'L holds (derived:
30_encoding.md R63, the spec's decision D14). -/
def Obligations.SaeSwitchIgnoresTheLengthField : Prop :=
  ∀ (dst src : BitVec 5) (k : Mask) (imm8 : BitVec 8) (ll : BitVec 2) (rest : List Byte), k.wf = true →
    decode true ((encode (.vrndscalepdZmmSae dst src k imm8)).set 3
        (BitVec.ofBool k.z ++ (ll ++ (BitVec.ofBool true ++ (BitVec.ofBool true ++ k.aaa)))) ++ rest) =
      .form (.vrndscalepdZmmSae dst src k imm8) 7

/-- Bytes before the EVEX prefix (derived: 30_encoding.md R58, general knowledge and the spec's decision D22): 66h, F2h, F3h, F0h
or 40h..4Fh immediately before 62h raise #UD; a segment override or 67h is refused; what is accepted starts with 62h. -/
def Obligations.BytesBeforeTheEvexPrefix : Prop :=
  (∀ (s : State) (b : Byte), s.mode = .bits64 → CodeAt s.pc [b, 0x62] s → s.pc.toNat + 2 ≤ 2 ^ 64 →
    (b = 0x66 ∨ b = 0xF2 ∨ b = 0xF3 ∨ b = 0xF0 ∨ (0x40 ≤ b.toNat ∧ b.toNat ≤ 0x4F)) →
    step s = .fault (.invalidOpcode s)) ∧
  (∀ (s : State) (b : Byte), s.mode = .bits64 → CodeAt s.pc [b] s →
    b ∈ ([0x26, 0x2E, 0x36, 0x3E, 0x64, 0x65, 0x67] : List Byte) → step s = .refused .legacyPrefix) ∧
  (∀ (saeAnyLL : Bool) (bytes : List Byte) (i : Instr) (len : Nat), decode saeAnyLL bytes = .form i len →
    bytes.head? = some 0x62)

/-! ### Fetch and step -/

/-- A step runs the decoded instruction: where the bytes at `pc` decode to `i`, the step is `exec i` and nothing else (the
meaning itself advances `pc`). Where they decode to anything else, the step is what 40_vrndscalepd.md R97 makes of that answer:
#UD with the state as it was, or the refusal of that name. -/
def Obligations.StepRunsTheDecodedInstruction : Prop :=
  ∀ (s : State) (bytes : List Byte), s.mode = .bits64 → CodeAt s.pc bytes s →
    bytes.length ≤ 15 → s.pc.toNat + bytes.length ≤ 2 ^ 64 →
    (∀ i len, decode s.saeAnyLL bytes = .form i len → step s = exec i s) ∧
    (decode s.saeAnyLL bytes = .ud → step s = .fault (.invalidOpcode s)) ∧
    (decode s.saeAnyLL bytes = .refusedLegacyPrefix → step s = .refused .legacyPrefix) ∧
    (decode s.saeAnyLL bytes = .refusedSaeLength → step s = .refused .saeWithNon512Length) ∧
    (decode s.saeAnyLL bytes = .notThisInstruction → step s = .refused .notThisInstruction)

/-- A byte that cannot be fetched stops the step before any decoding result: where the bytes before `pc + j` are fetched without
settling what the instruction is, and the byte at `pc + j` cannot be fetched, the step is the page fault or, for a non-canonical
`pc`, #GP(0), the state untouched (derived: 20_memory.md R45, 60_exceptions.md R126, general knowledge). Code that crosses the
canonical boundary or would go on past 2^64 - 1 is refused (10_state.md R12, the spec's decision D29; log entry 9); so is memory
with side effects (log entry 10). -/
def Obligations.FetchFaultsAreRaised : Prop :=
  ∀ (s : State) (bytes : List Byte), s.mode = .bits64 → CodeAt s.pc bytes s → bytes.length < 15 →
    decode s.saeAnyLL bytes = .short →
    (s.pc.toNat + bytes.length < 2 ^ 64 →
      (translateAccess s.xlat (s.pc + BitVec.ofNat 64 bytes.length) 1 .fetch = .nonCanonical →
        step s = if bytes = [] then .fault (.generalProtection s) else .refused .pcLeavesRange) ∧
      (∀ code addr, translateAccess s.xlat (s.pc + BitVec.ofNat 64 bytes.length) 1 .fetch = .pageFault code addr →
        step s = .fault (.pageFault code addr s)) ∧
      (translateAccess s.xlat (s.pc + BitVec.ofNat 64 bytes.length) 1 .fetch = .sideEffects →
        step s = .refused .sideEffectingRead)) ∧
    (s.pc.toNat + bytes.length = 2 ^ 64 → step s = .refused .pcLeavesRange)

/-- The encoding of a well-formed instruction, placed at `pc` of the reset machine after boot, is what the next step runs
(the model's reading of a launch: log entry 1). -/
def Obligations.LaunchedInstructionRunsAfterBoot : Prop :=
  ∀ i : Instr, i.wf = true → step (launched State.reset (encode i)) = exec i (launched State.reset (encode i))

/-- Outside 64-bit mode nothing is decoded (derived: 00_scope.md R8 and the spec's decision D3). As instructions, all forms raise #UD
in real-address and virtual-8086 mode (60_exceptions.md R121 j) and are refused in the 32-bit modes (the model's choice: log entry 13). -/
def Obligations.OtherModesAreNotAdmitted : Prop :=
  ∀ (s : State) (i : Instr),
    (s.mode ≠ .bits64 → step s = .refused .modeNotAdmitted) ∧
    ((s.mode = .realAddress ∨ s.mode = .virtual8086) → exec i s = .fault (.invalidOpcode s)) ∧
    ((s.mode = .protected32 ∨ s.mode = .compatibility) → exec i s = .refused .modeNotAdmitted)

/-! ### The per-element function -/

/-- The magnitude the model computes for `± m / 2^sh`, with its sign, is the integer that the table of 40_vrndscalepd.md R83 names for each
direction (nearest with ties to even, the greatest not above, the least not below, toward zero), and it is `RoundInt` (derived: R83,
of the numbers a machine with binary64 elements can meet, not of every real). -/
def Obligations.RoundedMagnitudeIsTheRuleInteger : Prop :=
  ∀ (neg : Bool) (m sh : Nat),
    let y : ℚ := (if neg then -1 else 1) * ((m : ℚ) / 2 ^ sh)
    let n : BitVec 2 → ℤ := fun rd => (if neg then -1 else 1) * (roundMagnitude rd neg m sh : ℤ)
    (|y - n 0| ≤ 1 / 2 ∧ (|y - n 0| = 1 / 2 → Even (n 0))) ∧
    ((n 1 : ℚ) ≤ y ∧ y < n 1 + 1) ∧
    (y ≤ n 2 ∧ (n 2 : ℚ) - 1 < y) ∧
    (0 ≤ y → (n 3 : ℚ) ≤ y ∧ y < n 3 + 1) ∧ (y < 0 → y ≤ n 3 ∧ (n 3 : ℚ) - 1 < y) ∧
    ∀ rd, roundInt rd y = n rd

/-- 40_vrndscalepd.md R84: a finite non-zero element becomes the finite element of the same sign whose value is exactly
`RoundInt(rd, x * 2^M) * 2^-M`, with `rd` and `M` as R81 takes them from `imm8` and MXCSR.RC. -/
def Obligations.FiniteElementsAreRoundedExactly : Prop :=
  ∀ (src : Word64) (imm8 : BitVec 8) (mxcsr : BitVec 32),
    let x := afterDaz src mxcsr
    let rd : BitVec 2 := if imm8.getLsbD 2 then mxcsr.extractLsb' 13 2 else imm8.extractLsb' 0 2
    let M := (imm8.extractLsb' 4 4).toNat
    isFinite x = true → isZero x = false →
    let d := (roundElement src imm8 mxcsr).dest
    isFinite d = true ∧ signOf d = signOf x ∧ valQ d = (roundInt rd (valQ x * 2 ^ M) : ℚ) / 2 ^ M

/-- The special cases (derived: 40_vrndscalepd.md R85, the source's table and the spec's decision D17): infinities, zeros, quiet NaNs and
flushed denormals come back as they are, a signalling NaN with bit 51 set; only the last reports a condition. `imm8` and the
rest of MXCSR have no effect. -/
def Obligations.SpecialElementsComeBack : Prop :=
  ∀ (src : Word64) (imm8 : BitVec 8) (mxcsr : BitVec 32),
    (isInfinity src = true ∨ isZero src = true ∨ isQNaN src = true → roundElement src imm8 mxcsr = ⟨src, false, false⟩) ∧
    (isDenormal src = true → mxcsr.getLsbD 6 = true →
      roundElement src imm8 mxcsr = ⟨BitVec.ofBool (src.getLsbD 63) ++ (0 : BitVec 63), false, false⟩) ∧
    (isSNaN src = true →
      (roundElement src imm8 mxcsr).ie = true ∧ (roundElement src imm8 mxcsr).pe = false ∧
      isQNaN (roundElement src imm8 mxcsr).dest = true ∧
      (roundElement src imm8 mxcsr).dest.getLsbD 51 = true ∧
      ∀ b, b ≠ 51 → (roundElement src imm8 mxcsr).dest.getLsbD b = src.getLsbD b)

/-- The sign of every result is the sign of its source (derived: 40_vrndscalepd.md R86). -/
def Obligations.SignIsPreserved : Prop :=
  ∀ (src : Word64) (imm8 : BitVec 8) (mxcsr : BitVec 32),
    (roundElement src imm8 mxcsr).dest.getLsbD 63 = src.getLsbD 63

/-- The precision condition (derived: 40_vrndscalepd.md R87, the source's test and the spec's decision D16): it holds exactly where the
element is finite and non-zero after DAZ, `imm8[3] = 0`, and the result differs in value. -/
def Obligations.PrecisionConditionIsAChangeOfValue : Prop :=
  ∀ (src : Word64) (imm8 : BitVec 8) (mxcsr : BitVec 32),
    (roundElement src imm8 mxcsr).pe = true ↔
      isFinite (afterDaz src mxcsr) = true ∧ isZero (afterDaz src mxcsr) = false ∧ imm8.getLsbD 3 = false ∧
      valQ (roundElement src imm8 mxcsr).dest ≠ valQ (afterDaz src mxcsr)

/-- The invalid condition is a signalling NaN and nothing else, whatever `imm8` and MXCSR hold (derived: 40_vrndscalepd.md R88, the
spec's decision D18). -/
def Obligations.InvalidConditionIsASignallingNaN : Prop :=
  ∀ (src : Word64) (imm8 : BitVec 8) (mxcsr : BitVec 32),
    (roundElement src imm8 mxcsr).ie = true ↔ isSNaN src = true

/-- No result is a denormal or an overflow, and a magnitude of at least `2^(52-M)` is unchanged (derived: 40_vrndscalepd.md R89). -/
def Obligations.ResultsNeedNoSecondRounding : Prop :=
  ∀ (src : Word64) (imm8 : BitVec 8) (mxcsr : BitVec 32), isFinite src = true →
    isFinite (roundElement src imm8 mxcsr).dest = true ∧
    isDenormal (roundElement src imm8 mxcsr).dest = false ∧
    ((2 : ℚ) ^ 52 ≤ |valQ src| * 2 ^ (imm8.extractLsb' 4 4).toNat → (roundElement src imm8 mxcsr).dest = src)

/-- Where the direction comes from (40_vrndscalepd.md R81): with `imm8[2] = 1` the bits `imm8[1:0]` have no effect, with `imm8[2] = 0`
MXCSR.RC has none, and with the direction the same the two ways give the same element. -/
def Obligations.DirectionHasOneSource : Prop :=
  ∀ (src : Word64) (imm8 imm8' : BitVec 8) (mxcsr mxcsr' : BitVec 32), mxcsr.getLsbD 6 = mxcsr'.getLsbD 6 →
    imm8.extractLsb' 3 5 = imm8'.extractLsb' 3 5 →
    (imm8.getLsbD 2 = true → imm8'.getLsbD 2 = true → mxcsr.extractLsb' 13 2 = mxcsr'.extractLsb' 13 2 →
      roundElement src imm8 mxcsr = roundElement src imm8' mxcsr') ∧
    (imm8.getLsbD 2 = false → imm8'.getLsbD 2 = false → imm8.extractLsb' 0 2 = imm8'.extractLsb' 0 2 →
      roundElement src imm8 mxcsr = roundElement src imm8' mxcsr') ∧
    (imm8.getLsbD 2 = true → imm8'.getLsbD 2 = false → mxcsr.extractLsb' 13 2 = imm8'.extractLsb' 0 2 →
      roundElement src imm8 mxcsr = roundElement src imm8' mxcsr')

/-! ### The instructions -/

/-- vrndscalepdXmmReg, vrndscalepdYmmReg, vrndscalepdZmmReg complete, and how: the destination, the flags, `pc`, and the frame
(40_vrndscalepd.md R100, R103, R106 with R92, R93, R96). -/
def Obligations.RegisterFormsComplete : Prop :=
  ∀ (vl : VLen) (dst src : BitVec 5) (k : Mask) (imm8 : BitVec 8) (s : State), Ready vl s → NextPcInRange 7 s →
    NoneUnmasked s vl k imm8 (lane (s.readZmm src)) →
    ∃ t, exec (vl.regInstr dst src k imm8) s = .next t ∧ Written s t vl dst k imm8 (lane (s.readZmm src)) ∧
      FlagsCollected s t vl k imm8 (lane (s.readZmm src)) ∧ t.pc = s.pc + 7 ∧ Framed s t dst

/-- vrndscalepdXmmMem, vrndscalepdYmmMem, vrndscalepdZmmMem complete where the whole operand is readable (40_vrndscalepd.md R101, R104,
R107). -/
def Obligations.FullMemoryFormsComplete : Prop :=
  ∀ (vl : VLen) (dst : BitVec 5) (m : MemOperand) (k : Mask) (imm8 : BitVec 8) (s : State), Ready vl s →
    NextPcInRange (memLength m) s → Readable (fullAddr vl m s) (8 * kl vl) s →
    NoneUnmasked s vl k imm8 (fullElement s (fullAddr vl m s)) →
    ∃ t, exec (vl.memInstr dst m k imm8) s = .next t ∧ Written s t vl dst k imm8 (fullElement s (fullAddr vl m s)) ∧
      FlagsCollected s t vl k imm8 (fullElement s (fullAddr vl m s)) ∧
      t.pc = s.pc + BitVec.ofNat 64 (memLength m) ∧ Framed s t dst

/-- vrndscalepdXmmBcst, vrndscalepdYmmBcst, vrndscalepdZmmBcst complete where the 8 bytes are readable; every element's source is
those 8 bytes (40_vrndscalepd.md R102, R105, R108). -/
def Obligations.BroadcastFormsComplete : Prop :=
  ∀ (vl : VLen) (dst : BitVec 5) (m : MemOperand) (k : Mask) (imm8 : BitVec 8) (s : State), Ready vl s →
    NextPcInRange (memLength m) s → Readable (bcstAddr m s) 8 s →
    NoneUnmasked s vl k imm8 (fun _ => readQword s (bcstAddr m s)) →
    ∃ t, exec (vl.bcstInstr dst m k imm8) s = .next t ∧
      Written s t vl dst k imm8 (fun _ => readQword s (bcstAddr m s)) ∧
      FlagsCollected s t vl k imm8 (fun _ => readQword s (bcstAddr m s)) ∧
      t.pc = s.pc + BitVec.ofNat 64 (memLength m) ∧ Framed s t dst

/-- vrndscalepdZmmSae completes whatever conditions its elements have and whatever MXCSR masks, and leaves MXCSR as it was
(derived: 40_vrndscalepd.md R94, R109, general knowledge and the spec's decision D19). -/
def Obligations.SaeFormCompletes : Prop :=
  ∀ (dst src : BitVec 5) (k : Mask) (imm8 : BitVec 8) (s : State), Ready .v512 s → NextPcInRange 7 s →
    ∃ t, exec (.vrndscalepdZmmSae dst src k imm8) s = .next t ∧ Written s t .v512 dst k imm8 (lane (s.readZmm src)) ∧
      t.mxcsr = s.mxcsr ∧ t.pc = s.pc + 7 ∧ Framed s t dst

/-- 40_vrndscalepd.md R92, for all ten forms, on the 512 bits of the register: a completed instruction has written each enabled element's
`RoundToIntegerDP`, kept or zeroed the others below VL, and zeroed bits 511:VL; and a disabled element sets no flag and raises no
exception, whatever its source: a SIMD floating-point exception, #XM or the #UD in its place, has an unmasked condition of an
enabled element. -/
def Obligations.DestinationIsWrittenUnderTheMask : Prop :=
  ∀ (i : Instr) (s : State),
    (∀ t, exec i s = .next t →
      (∀ j : Fin 8, j.val < kl (vlenOf i) →
        (zmmBits (t.readZmm (dstOf i))).extractLsb' (64 * j.val) 64 =
          if (maskOf i).aaa = 0 ∨ (s.readK (maskOf i).aaa).getLsbD j.val = true then
            (roundElement (sourceOf s i j) (immOf i) s.mxcsr).dest
          else if (maskOf i).z = false then (zmmBits (s.readZmm (dstOf i))).extractLsb' (64 * j.val) 64
          else 0) ∧
      (∀ b, 64 * kl (vlenOf i) ≤ b → (zmmBits (t.readZmm (dstOf i))).getLsbD b = false) ∧
      (isSae i = false → FlagsCollected s t (vlenOf i) (maskOf i) (immOf i) (sourceOf s i))) ∧
    (∀ left, exec i s = .fault (.simdException left) ∨ (Ready (vlenOf i) s ∧ exec i s = .fault (.invalidOpcode left)) →
      isSae i = false ∧ ∃ j, On s (vlenOf i) (maskOf i) j ∧
        ((mxcsrIM s.mxcsr = false ∧ isSNaN (sourceOf s i j) = true) ∨
          (mxcsrPM s.mxcsr = false ∧ (roundElement (sourceOf s i j) (immOf i) s.mxcsr).pe = true)))

/-- When an instruction of any form completes: exactly when the machine is ready for its vector length, its memory operand (if it has
one) is readable, `pc + len` is in range, and no enabled element raises an unmasked condition or the form is `{sae}` (derived:
40_vrndscalepd.md R97; the range of `pc + len` is the spec's decision D29, log entry 8). -/
def Obligations.WhenAnInstructionCompletes : Prop :=
  ∀ (i : Instr) (s : State),
    (∃ t, exec i s = .next t) ↔
      Ready (vlenOf i) s ∧ (∀ a n ss, operandOf s i = some (a, n, ss) → Readable a n s) ∧ NextPcInRange i.length s ∧
      (isSae i = true ∨ NoneUnmasked s (vlenOf i) (maskOf i) (immOf i) (sourceOf s i))

/-- An unmasked condition in an enabled element raises the SIMD floating-point exception in every form but `{sae}` (derived:
60_exceptions.md R125, R127, general knowledge and the spec's decision D11). -/
def Obligations.UnmaskedConditionsRaiseTheSimdException : Prop :=
  ∀ (vl : VLen) (dst src : BitVec 5) (m : MemOperand) (k : Mask) (imm8 : BitVec 8) (s : State), Ready vl s →
    (¬ NoneUnmasked s vl k imm8 (lane (s.readZmm src)) →
      RaisesSimd s vl k imm8 (lane (s.readZmm src)) (exec (vl.regInstr dst src k imm8) s)) ∧
    (Readable (fullAddr vl m s) (8 * kl vl) s → ¬ NoneUnmasked s vl k imm8 (fullElement s (fullAddr vl m s)) →
      RaisesSimd s vl k imm8 (fullElement s (fullAddr vl m s)) (exec (vl.memInstr dst m k imm8) s)) ∧
    (Readable (bcstAddr m s) 8 s → ¬ NoneUnmasked s vl k imm8 (fun _ => readQword s (bcstAddr m s)) →
      RaisesSimd s vl k imm8 (fun _ => readQword s (bcstAddr m s)) (exec (vl.bcstInstr dst m k imm8) s))

/-- #UD where the OS enable or the CPUID condition fails, before #NM and before any memory access (derived: 60_exceptions.md R121 g,
h, R124, R126; the CPUID conditions are the source's, the rest general knowledge). -/
def Obligations.MissingFeatureOrEnableRaisesInvalidOpcode : Prop :=
  ∀ (i : Instr) (s : State), s.mode = .bits64 →
    (s.cr4Osxsave = false ∨ s.xcr0.getLsbD 1 = false ∨ s.xcr0.getLsbD 2 = false ∨ s.xcr0.getLsbD 5 = false ∨
      s.xcr0.getLsbD 6 = false ∨ s.xcr0.getLsbD 7 = false ∨
      (vlenOf i = .v512 ∧ s.cpuid.avx512f = false ∧ s.cpuid.avx10_1 = false) ∨
      (vlenOf i ≠ .v512 ∧ (s.cpuid.avx512vl = false ∨ s.cpuid.avx512f = false) ∧ s.cpuid.avx10_1 = false)) →
    exec i s = .fault (.invalidOpcode s)

/-- #NM where CR0.TS = 1, after the #UD conditions and before any memory access (derived: 60_exceptions.md R122, general knowledge). -/
def Obligations.TaskSwitchedRaisesDeviceNotAvailable : Prop :=
  ∀ (i : Instr) (s : State), s.mode = .bits64 → s.osEnabled = true → s.featureOk (vlenOf i) = true → s.cr0Ts = true →
    exec i s = .fault (.deviceNotAvailable s)

/-- Memory faults of the six memory forms (derived: 20_memory.md R36, R46, 60_exceptions.md R123, R126, general knowledge and the spec's
decisions D4, D6): whatever the mask and whatever the operand would raise, `Translate`'s answer on the whole operand is
the fault, the state unchanged; a non-canonical address is #SS(0) exactly with base RSP or RBP; an operand in memory whose reads
have side effects is refused (20_memory.md R35; log entry 10). -/
def Obligations.OperandFaultsAreRaised : Prop :=
  ∀ (vl : VLen) (dst : BitVec 5) (m : MemOperand) (k : Mask) (imm8 : BitVec 8) (s : State), Ready vl s →
    let onStack : Prop := (∃ d, m = .base 4 d ∨ m = .base 5 d) ∨ ∃ x c d, m = .sib 4 x c d ∨ m = .sib 5 x c d
    (translateAccess s.xlat (fullAddr vl m s) (8 * kl vl) .dataRead = .nonCanonical →
      (onStack → exec (vl.memInstr dst m k imm8) s = .fault (.stackFault s)) ∧
      (¬ onStack → exec (vl.memInstr dst m k imm8) s = .fault (.generalProtection s))) ∧
    (∀ code addr, translateAccess s.xlat (fullAddr vl m s) (8 * kl vl) .dataRead = .pageFault code addr →
      exec (vl.memInstr dst m k imm8) s = .fault (.pageFault code addr s)) ∧
    (translateAccess s.xlat (bcstAddr m s) 8 .dataRead = .nonCanonical →
      (onStack → exec (vl.bcstInstr dst m k imm8) s = .fault (.stackFault s)) ∧
      (¬ onStack → exec (vl.bcstInstr dst m k imm8) s = .fault (.generalProtection s))) ∧
    (∀ code addr, translateAccess s.xlat (bcstAddr m s) 8 .dataRead = .pageFault code addr →
      exec (vl.bcstInstr dst m k imm8) s = .fault (.pageFault code addr s)) ∧
    (translateAccess s.xlat (fullAddr vl m s) (8 * kl vl) .dataRead = .sideEffects →
      exec (vl.memInstr dst m k imm8) s = .refused .sideEffectingRead) ∧
    (translateAccess s.xlat (bcstAddr m s) 8 .dataRead = .sideEffects →
      exec (vl.bcstInstr dst m k imm8) s = .refused .sideEffectingRead)

/-- What every form refuses by name when it has otherwise completed: a `pc + len` that wraps or is not canonical (derived:
10_state.md R12 and the spec's decision D29; log entry 8). -/
def Obligations.NextPcOutOfRangeIsRefused : Prop :=
  ∀ (vl : VLen) (dst src : BitVec 5) (m : MemOperand) (k : Mask) (imm8 : BitVec 8) (s : State), Ready vl s →
    (¬ NextPcInRange 7 s → NoneUnmasked s vl k imm8 (lane (s.readZmm src)) →
      exec (vl.regInstr dst src k imm8) s = .refused .pcLeavesRange) ∧
    (¬ NextPcInRange (memLength m) s → Readable (fullAddr vl m s) (8 * kl vl) s →
      NoneUnmasked s vl k imm8 (fullElement s (fullAddr vl m s)) →
      exec (vl.memInstr dst m k imm8) s = .refused .pcLeavesRange) ∧
    (¬ NextPcInRange (memLength m) s → Readable (bcstAddr m s) 8 s →
      NoneUnmasked s vl k imm8 (fun _ => readQword s (bcstAddr m s)) →
      exec (vl.bcstInstr dst m k imm8) s = .refused .pcLeavesRange) ∧
    (¬ NextPcInRange 7 s → vl = .v512 →
      exec (.vrndscalepdZmmSae dst src k imm8) s = .refused .pcLeavesRange)

/-! ### What does not matter -/

/-- 10_state.md R17: MXCSR is read only in DAZ, in RC when `imm8[2] = 1`, in IM unless `{sae}`, and in PM when `imm8[3] = 0` and not `{sae}`, and
written only by setting IE and PE. Two machines that differ in MXCSR outside the bits read do the same and set the same flags. -/
def Obligations.UnreadMxcsrBitsDoNotMatter : Prop :=
  ∀ (i : Instr) (s : State) (m' : BitVec 32), mxcsrDAZ m' = mxcsrDAZ s.mxcsr →
    ((immOf i).getLsbD 2 = true → mxcsrRC m' = mxcsrRC s.mxcsr) →
    (isSae i = false → mxcsrIM m' = mxcsrIM s.mxcsr) →
    (isSae i = false → (immOf i).getLsbD 3 = false → mxcsrPM m' = mxcsrPM s.mxcsr) →
    SameFlagsSet s.mxcsr m' (exec i s) (exec i { s with mxcsr := m' })

/-- Elements of a register source that are disabled, or lie above VL, have no effect: no value, no flag, no exception (derived:
40_vrndscalepd.md R92, R100, R103, R106, R109). -/
def Obligations.DisabledSourceElementsDoNotMatter : Prop :=
  ∀ (i : Instr) (vl : VLen) (dst src : BitVec 5) (k : Mask) (imm8 : BitVec 8) (s t : State) (v : Zmm), src ≠ dst →
    (i = vl.regInstr dst src k imm8 ∨ (vl = .v512 ∧ i = .vrndscalepdZmmSae dst src k imm8)) →
    (∀ j, On s vl k j → lane v j = lane (s.readZmm src) j) →
    exec i s = .next t → exec i (s.writeZmm src v) = .next (t.writeZmm src v)

/-- Of the opmask registers only bits `KL-1:0` of the selected one matter, and none with `aaa = 000b` (derived: 10_state.md R15,
30_encoding.md R66). -/
def Obligations.UnselectedOpmaskBitsDoNotMatter : Prop :=
  ∀ (i : Instr) (s t : State) (k' : Vector (BitVec 64) 8),
    ((maskOf i).aaa ≠ 0 → ∀ j, j < kl (vlenOf i) →
      (k'[(maskOf i).aaa.toNat]'(maskOf i).aaa.isLt).getLsbD j = (s.readK (maskOf i).aaa).getLsbD j) →
    exec i s = .next t → exec i { s with k := k' } = .next { t with k := k' }

/-! ### The machine as a whole -/

/-- Every step keeps the invariant: memory in its canonical form, MXCSR's reserved bits zero, and the code segment's base zero in
64-bit mode. -/
def Obligations.StepKeepsTheInvariant : Prop :=
  ∀ s t : State, Inv s → step s = .next t → Inv t

/-- The reset state meets the invariant. -/
def Obligations.ResetMeetsTheInvariant : Prop := Inv State.reset

/-- What any step may change: one vector register, the two sticky flags (which only rise), and `pc`, by 7 to 12 (derived:
10_state.md R10, R13, R17, 40_vrndscalepd.md R96, R110), and without wrapping at 2^64, since such a step is refused (the spec's
decision D29; log entry 8). -/
def Obligations.StepChangesOneRegisterTwoFlagsAndPc : Prop :=
  ∀ s t : State, step s = .next t →
    (∃ dst, Framed s t dst) ∧ (∃ len, 7 ≤ len ∧ len ≤ 12 ∧ t.pc = s.pc + BitVec.ofNat 64 len ∧ s.pc.toNat + len < 2 ^ 64) ∧
    (∀ b, s.mxcsr.getLsbD b = true → t.mxcsr.getLsbD b = true) ∧
    (∀ b, b ≠ 0 → b ≠ 5 → t.mxcsr.getLsbD b = s.mxcsr.getLsbD b)

/-- The exact frame of a completed instruction of any form: nothing but its destination register, IE, PE and `pc`. -/
def Obligations.CompletedInstructionIsFramed : Prop :=
  ∀ (i : Instr) (s t : State), exec i s = .next t →
    Framed s t (dstOf i) ∧ t.pc = s.pc + BitVec.ofNat 64 i.length ∧
    (isSae i = true → t.mxcsr = s.mxcsr) ∧ (∀ b, b ≠ 0 → b ≠ 5 → t.mxcsr.getLsbD b = s.mxcsr.getLsbD b)

/-- A fault is precise: it leaves every component as it was, `pc` at the instruction, but that a SIMD floating-point exception
(#XM, or #UD in its place) may have set IE and PE (derived: 60_exceptions.md R127, general knowledge). -/
def Obligations.FaultsLeaveTheStateAsItWas : Prop :=
  ∀ (s : State) (f : Fault), step s = .fault f →
    f.left.zmm = s.zmm ∧ f.savedPc = s.pc ∧ OthersUnchanged s f.left ∧
    (∀ b, s.mxcsr.getLsbD b = true → f.left.mxcsr.getLsbD b = true) ∧
    (∀ b, b ≠ 0 → b ≠ 5 → f.left.mxcsr.getLsbD b = s.mxcsr.getLsbD b) ∧
    (f.left ≠ s → f.vector = if s.cr4Osxmmexcpt then 19 else 6)

/-- Reset leaves the registers as the middle column of 10_state.md R21 gives them (derived: general knowledge in the spec, which takes a
launch state instead: log entry 18). -/
def Obligations.ResetLeavesTheStatedValues : Prop :=
  (∀ r j, lane (State.reset.readZmm r) j = 0) ∧ (∀ r, State.reset.readK r = 0) ∧ State.reset.mxcsr = 0x1F80 ∧
  State.reset.pc = 0xFFF0 ∧ State.reset.csBase = 0xFFFF0000 ∧ State.reset.mode = .realAddress ∧
  (∀ r, r ≠ 2 → State.reset.readX r = 0) ∧ State.reset.cr0Ts = false ∧ State.reset.cr4Osxsave = false ∧
  State.reset.cr4Osxmmexcpt = false ∧ State.reset.xcr0 = 1 ∧ State.reset.rflags.getLsbD 9 = false

/-- After RESET alone every form raises #UD; after the boot of 70_reset_and_hazards.md R141 the machine is ready for a form exactly
where its CPUID condition holds (derived: R140, R141). -/
def Obligations.ResetNeedsBoot : Prop :=
  (∀ i : Instr, exec i State.reset = .fault (.invalidOpcode State.reset)) ∧
  ∀ (s : State) (vl : VLen), Ready vl s.boot ↔ s.featureOk vl = true

/-- A program runs to its end (derived: 70_reset_and_hazards.md R145, 10_state.md R10, R12, the spec's decisions D21, D27): where the
encodings of well-formed instructions stand one after another from `pc` and may be fetched, and each answers a next state in its
turn, the machine runs exactly them, one a step, and its run is over for the first time after the last of them, at `pc` plus the
total length, with opmasks, general registers, RFLAGS, memory, the configuration and every vector register that is no
destination as they were at launch. -/
def Obligations.LaidOutProgramRunsToItsEnd : Prop :=
  ∀ (prog : List Instr) (s t : State), (∀ i ∈ prog, i.wf = true) → CodeAt s.pc (programBytes prog) s →
    execAll prog s = some t →
    let endPc : Addr := s.pc + BitVec.ofNat 64 (programBytes prog).length
    runFor prog.length s = some t ∧ t.pc = endPc ∧ s.pc.toNat + (programBytes prog).length < 2 ^ 64 ∧
    finishes endPc prog.length s = true ∧
    (∀ n, n < prog.length → finishes endPc n s = false ∧ ∃ u, runFor n s = some u ∧ u.pc ≠ endPc ∧ SafeStep u) ∧
    OthersUnchanged s t ∧ t.draws = s.draws ∧ (∀ r, (∀ i ∈ prog, dstOf i ≠ r) → t.readZmm r = s.readZmm r)

/-! ### Memory, addresses, translation -/

/-- Little-endian: byte `i` of `MemRead(a, n)` is the byte at `a + i`, modulo 2^64 (derived: 20_memory.md R31, the spec's decision D1). -/
def Obligations.MemoryReadsAreLittleEndian : Prop :=
  ∀ (s : State) (a : Addr) (n i : Nat), i < n →
    (memBits s.mem a n).extractLsb' (8 * i) 8 = s.readByte (a + BitVec.ofNat 64 i)

/-- Element placement (derived: 20_memory.md R32): element `j` of a full-width operand is the slice `64j+63 : 64j` of the one read of VL/8
bytes, and that is the read of 8 bytes at `a + 8j`; a broadcast's elements are all the read of 8 bytes at `a`. -/
def Obligations.ElementsLieAtTheirAddresses : Prop :=
  ∀ (s : State) (vl : VLen) (a : Addr) (j : Fin 8), j.val < kl vl →
    lane (loadFull s vl a) j = (memBits s.mem a (8 * kl vl)).extractLsb' (64 * j.val) 64 ∧
    lane (loadFull s vl a) j = memBits s.mem (a + BitVec.ofNat 64 (8 * j.val)) 8 ∧
    lane (loadBcst s vl a) j = memBits s.mem a 8

/-- The effective address of each operand form, full-width at each vector length and broadcast (derived: 20_memory.md R38,
30_encoding.md R64, general knowledge): base, index times 2^scale (none for index number 4), RIP-relative from the next
instruction, no base, and an 8-bit displacement times `N` = 16, 32 or 64, or 8 for a broadcast. -/
def Obligations.EffectiveAddresses : Prop :=
  ∀ (s : State) (addr : MemOperand → Addr) (N : BitVec 64),
    (addr = fun m => fullAddr .v128 m s) ∧ N = 16 ∨ (addr = fun m => fullAddr .v256 m s) ∧ N = 32 ∨
      (addr = fun m => fullAddr .v512 m s) ∧ N = 64 ∨ (addr = fun m => bcstAddr m s) ∧ N = 8 →
    ∀ (b x : BitVec 4) (c : BitVec 2) (d8 : BitVec 8) (d32 : BitVec 32),
      addr (.base b .absent) = s.readX b ∧
      addr (.base b (.disp8 d8)) = s.readX b + d8.signExtend 64 * N ∧
      addr (.base b (.disp32 d32)) = s.readX b + d32.signExtend 64 ∧
      addr (.sib b 4 c .absent) = s.readX b ∧
      addr (.sib b 4 c (.disp8 d8)) = s.readX b + d8.signExtend 64 * N ∧
      addr (.sib b 4 c (.disp32 d32)) = s.readX b + d32.signExtend 64 ∧
      (x ≠ 4 →
        addr (.sib b x c .absent) = s.readX b + s.readX x * BitVec.ofNat 64 (2 ^ c.toNat) ∧
        addr (.sib b x c (.disp8 d8)) = s.readX b + s.readX x * BitVec.ofNat 64 (2 ^ c.toNat) + d8.signExtend 64 * N ∧
        addr (.sib b x c (.disp32 d32)) = s.readX b + s.readX x * BitVec.ofNat 64 (2 ^ c.toNat) + d32.signExtend 64 ∧
        addr (.sibNoBase x c d32) = s.readX x * BitVec.ofNat 64 (2 ^ c.toNat) + d32.signExtend 64) ∧
      addr (.sibNoBase 4 c d32) = d32.signExtend 64 ∧
      addr (.rip d32) = s.pc + 11 + d32.signExtend 64

/-- The state can hold every `Translate`: each function of the address, the width and the kind of access, on the widths the machine
uses, is the reading of some table (derived: 20_memory.md R36, the spec's decision D4; the table is the model's: log entry 5). -/
def Obligations.EveryTranslationHasATable : Prop :=
  ∀ f : Addr → Nat → AccessKind → Verdict, ∃ t : List XlatRule, ∀ a n kind, n ≤ 64 → translateAccess t a n kind = f a n kind

/-- The elements of a register are the slices of its 512 bits (derived: 10_state.md R14). -/
def Obligations.ElementsAreSlicesOfTheRegister : Prop :=
  ∀ (v : Zmm) (j : Fin 8), (zmmBits v).extractLsb' (64 * j.val) 64 = lane v j

/-- Exceptions carry the vector number, error code and recorded address of 60_exceptions.md R120 (derived: general knowledge). -/
def Obligations.ExceptionsCarryTheirNumbers : Prop :=
  ∀ (s : State) (code : BitVec 32) (addr : Addr),
    (Fault.invalidOpcode s).vector = 6 ∧ (Fault.invalidOpcode s).errorCode = none ∧
    (Fault.deviceNotAvailable s).vector = 7 ∧ (Fault.deviceNotAvailable s).errorCode = none ∧
    (Fault.stackFault s).vector = 12 ∧ (Fault.stackFault s).errorCode = some 0 ∧
    (Fault.generalProtection s).vector = 13 ∧ (Fault.generalProtection s).errorCode = some 0 ∧
    (Fault.pageFault code addr s).vector = 14 ∧ (Fault.pageFault code addr s).errorCode = some code ∧
    (Fault.pageFault code addr s).recordedAddress = some addr ∧
    (Fault.simdException s).vector = 19 ∧ (Fault.simdException s).errorCode = none
end

