-- ==== Sys2Proof/Laws/Decode.lean ====
section
/-! SUPPORT. The decoder is settled by the bytes it asks for: more bytes after them change nothing. -/

namespace Sys2Proof

theorem parseDisp32_append {mk : BitVec 32 → MemOperand} {n : Nat} {bs more : List Byte} {p : MemOperand × Nat × List Byte}
    (h : parseDisp32 mk n bs = some p) : parseDisp32 mk n (bs ++ more) = some (p.1, p.2.1, p.2.2 ++ more) := by
  rcases bs with _ | ⟨b0, _ | ⟨b1, _ | ⟨b2, _ | ⟨b3, tail⟩⟩⟩⟩ <;> simp [parseDisp32] at h ⊢
  subst h; simp

theorem parseDisp_append {mod : BitVec 2} {mk : Disp → MemOperand} {n : Nat} {bs more : List Byte}
    {p : MemOperand × Nat × List Byte} (h : parseDisp mod mk n bs = some p) :
    parseDisp mod mk n (bs ++ more) = some (p.1, p.2.1, p.2.2 ++ more) := by
  unfold parseDisp at h ⊢
  split_ifs at h ⊢ with h0 h1
  · simp at h; subst h; rfl
  · rcases bs with _ | ⟨b, tail⟩ <;> simp at h ⊢
    subst h; simp
  · rcases bs with _ | ⟨b0, _ | ⟨b1, _ | ⟨b2, _ | ⟨b3, tail⟩⟩⟩⟩ <;> simp at h ⊢
    subst h; simp

theorem parseMem_append {p0 modrm : Byte} {bs more : List Byte} {p : MemOperand × Nat × List Byte}
    (h : parseMem p0 modrm bs = some p) : parseMem p0 modrm (bs ++ more) = some (p.1, p.2.1, p.2.2 ++ more) := by
  unfold parseMem at h ⊢
  dsimp only at h ⊢
  split_ifs at h ⊢ with h0 h1
  · rcases bs with _ | ⟨sib, tail⟩
    · simp at h
    · simp only [List.cons_append] at h ⊢
      split_ifs at h ⊢
      · exact parseDisp32_append h
      · exact parseDisp_append h
  · exact parseDisp32_append h
  · exact parseDisp_append h

theorem decodeReg_append {sw : Bool} {p0 p2 modrm : Byte} {bs : List Byte} (more : List Byte)
    (h : decodeReg sw p0 p2 modrm bs ≠ .short) : decodeReg sw p0 p2 modrm (bs ++ more) = decodeReg sw p0 p2 modrm bs := by
  unfold decodeReg at h ⊢
  dsimp only at h ⊢
  split_ifs at h ⊢ with h0 h1
  · rfl
  · rcases bs with _ | ⟨b, tail⟩
    · simp at h
    · rfl
  · cases hv : vlenOfLL (p2.extractLsb' 5 2) with
    | none => rfl
    | some vl =>
      rcases bs with _ | ⟨b, tail⟩
      · simp [hv] at h
      · rfl

theorem decodeMem_append {p0 p2 modrm : Byte} {bs : List Byte} (more : List Byte)
    (h : decodeMem p0 p2 modrm bs ≠ .short) : decodeMem p0 p2 modrm (bs ++ more) = decodeMem p0 p2 modrm bs := by
  unfold decodeMem at h ⊢
  cases hv : vlenOfLL (p2.extractLsb' 5 2) with
  | none => rfl
  | some vl =>
    simp only [hv] at h ⊢
    cases hp : parseMem p0 modrm bs with
    | none => simp [hp] at h
    | some p =>
      obtain ⟨m, n, tail⟩ := p
      rw [parseMem_append hp]
      rcases tail with _ | ⟨b, tail⟩
      · simp [hp] at h
      · rfl

theorem decodeEvex_append {sw : Bool} {p0 p1 p2 op : Byte} {bs : List Byte} (more : List Byte)
    (h : decodeEvex sw p0 p1 p2 op bs ≠ .short) : decodeEvex sw p0 p1 p2 op (bs ++ more) = decodeEvex sw p0 p1 p2 op bs := by
  unfold decodeEvex at h ⊢
  split_ifs at h ⊢ <;> try rfl
  rcases bs with _ | ⟨b, tail⟩
  · simp at h
  · simp only [List.cons_append] at h ⊢
    split_ifs at h ⊢ with hm
    · exact decodeReg_append more h
    · exact decodeMem_append more h

/-- Bytes that settle what the instruction is settle it whatever follows. -/
theorem decode_append {sw : Bool} {bs : List Byte} (more : List Byte) (h : decode sw bs ≠ .short) :
    decode sw (bs ++ more) = decode sw bs := by
  rcases bs with _ | ⟨b0, tail⟩
  · simp [decode] at h
  · simp only [decode, List.cons_append] at h ⊢
    split_ifs at h ⊢ with h0 h1 h2
    · rfl
    · rcases tail with _ | ⟨b1, tail⟩
      · simp at h
      · rfl
    · rfl
    · rcases tail with _ | ⟨p0, _ | ⟨p1, _ | ⟨p2, _ | ⟨op, rest⟩⟩⟩⟩ <;> simp at h ⊢
      exact decodeEvex_append more h

end Sys2Proof
end

