-- ==== Sys2Proof/Laws/State.lean ====
section
/-! SUPPORT. The small lemmas of the state: what each update leaves in each field, reads after writes, vector
elements, and the fields of MXCSR after an update. -/

namespace Sys2Proof.Machine

/-! ### Vector elements -/

@[simp] theorem lane_mkLanes (f : Fin 8 → Word64) (j : Fin 8) : lane (mkLanes f) j = f j := by
  fin_cases j <;> rfl

theorem zmm_ext {u v : Zmm} (h : ∀ j, lane u j = lane v j) : u = v := by
  apply Vector.ext
  intro i hi
  exact h ⟨i, hi⟩

theorem mkLanes_congr {f g : Fin 8 → Word64} (h : ∀ j, f j = g j) : mkLanes f = mkLanes g := by
  rw [funext h]

theorem anyLane_iff (p : Fin 8 → Bool) : anyLane p = true ↔ ∃ j, p j = true := by
  simp only [anyLane, Bool.or_eq_true]
  constructor
  · rintro (((((((h | h) | h) | h) | h) | h) | h) | h) <;> exact ⟨_, h⟩
  · rintro ⟨j, h⟩
    fin_cases j <;> simp_all

/-! ### Registers -/

@[simp] theorem readZmm_writeZmm (s : State) (r r' : BitVec 5) (v : Zmm) :
    (s.writeZmm r v).readZmm r' = if r' = r then v else s.readZmm r' := by
  by_cases h : r' = r
  · subst h; simp [State.readZmm, State.writeZmm]
  · have : r.toNat ≠ r'.toNat := fun e => h (BitVec.eq_of_toNat_eq e.symm)
    simp [State.readZmm, State.writeZmm, this, h]

@[simp] theorem readX_writeX (s : State) (r r' : BitVec 4) (v : BitVec 64) :
    (s.writeX r v).readX r' = if r' = r then v else s.readX r' := by
  by_cases h : r' = r
  · subst h; simp [State.readX, State.writeX]
  · have : r.toNat ≠ r'.toNat := fun e => h (BitVec.eq_of_toNat_eq e.symm)
    simp [State.readX, State.writeX, this, h]

section WriteZmm
variable (s : State) (r : BitVec 5) (v : Zmm)

@[simp] theorem writeZmm_k : (s.writeZmm r v).k = s.k := rfl
@[simp] theorem writeZmm_mxcsr : (s.writeZmm r v).mxcsr = s.mxcsr := rfl
@[simp] theorem writeZmm_x : (s.writeZmm r v).x = s.x := rfl
@[simp] theorem writeZmm_pc : (s.writeZmm r v).pc = s.pc := rfl
@[simp] theorem writeZmm_rflags : (s.writeZmm r v).rflags = s.rflags := rfl
@[simp] theorem writeZmm_mem : (s.writeZmm r v).mem = s.mem := rfl
@[simp] theorem writeZmm_mode : (s.writeZmm r v).mode = s.mode := rfl
@[simp] theorem writeZmm_csBase : (s.writeZmm r v).csBase = s.csBase := rfl
@[simp] theorem writeZmm_cr0Ts : (s.writeZmm r v).cr0Ts = s.cr0Ts := rfl
@[simp] theorem writeZmm_cr4Osxsave : (s.writeZmm r v).cr4Osxsave = s.cr4Osxsave := rfl
@[simp] theorem writeZmm_cr4Osxmmexcpt : (s.writeZmm r v).cr4Osxmmexcpt = s.cr4Osxmmexcpt := rfl
@[simp] theorem writeZmm_xcr0 : (s.writeZmm r v).xcr0 = s.xcr0 := rfl
@[simp] theorem writeZmm_cpuid : (s.writeZmm r v).cpuid = s.cpuid := rfl
@[simp] theorem writeZmm_saeAnyLL : (s.writeZmm r v).saeAnyLL = s.saeAnyLL := rfl
@[simp] theorem writeZmm_xlat : (s.writeZmm r v).xlat = s.xlat := rfl
@[simp] theorem writeZmm_draws : (s.writeZmm r v).draws = s.draws := rfl
@[simp] theorem writeZmm_readK (q : BitVec 3) : (s.writeZmm r v).readK q = s.readK q := rfl
@[simp] theorem writeZmm_readX (q : BitVec 4) : (s.writeZmm r v).readX q = s.readX q := rfl
@[simp] theorem writeZmm_readByte (a : Addr) : (s.writeZmm r v).readByte a = s.readByte a := rfl
@[simp] theorem writeZmm_osEnabled : (s.writeZmm r v).osEnabled = s.osEnabled := rfl
@[simp] theorem writeZmm_featureOk (vl : VLen) : (s.writeZmm r v).featureOk vl = s.featureOk vl := rfl
@[simp] theorem writeZmm_nextPcOk (n : Nat) : (s.writeZmm r v).nextPcOk n = s.nextPcOk n := rfl
@[simp] theorem writeZmm_enabled (k : Mask) (j : Fin 8) : enabled (s.writeZmm r v) k j = enabled s k j := rfl

end WriteZmm

section Boot
variable (s : State)

@[simp] theorem boot_zmm : s.boot.zmm = s.zmm := rfl
@[simp] theorem boot_k : s.boot.k = s.k := rfl
@[simp] theorem boot_mxcsr : s.boot.mxcsr = s.mxcsr := rfl
@[simp] theorem boot_x : s.boot.x = s.x := rfl
@[simp] theorem boot_pc : s.boot.pc = s.pc := rfl
@[simp] theorem boot_rflags : s.boot.rflags = s.rflags := rfl
@[simp] theorem boot_mem : s.boot.mem = s.mem := rfl
@[simp] theorem boot_mode : s.boot.mode = .bits64 := rfl
@[simp] theorem boot_csBase : s.boot.csBase = 0 := rfl
@[simp] theorem boot_cr0Ts : s.boot.cr0Ts = false := rfl
@[simp] theorem boot_cr4Osxsave : s.boot.cr4Osxsave = true := rfl
@[simp] theorem boot_cr4Osxmmexcpt : s.boot.cr4Osxmmexcpt = true := rfl
@[simp] theorem boot_xcr0 : s.boot.xcr0 = s.xcr0 ||| 0xE6 := rfl
@[simp] theorem boot_cpuid : s.boot.cpuid = s.cpuid := rfl
@[simp] theorem boot_saeAnyLL : s.boot.saeAnyLL = s.saeAnyLL := rfl
@[simp] theorem boot_xlat : s.boot.xlat = s.xlat := rfl
@[simp] theorem boot_draws : s.boot.draws = s.draws := rfl

end Boot

/-! ### MXCSR -/

theorem setFlags_getLsbD (m : BitVec 32) (ie pe : Bool) (b : Nat) :
    (setFlags m ie pe).getLsbD b = (m.getLsbD b || (ie && decide (b = 0)) || (pe && decide (b = 5))) := by
  have h1 : (1#32).getLsbD b = decide (b = 0) := by
    rw [show (1#32 : BitVec 32) = BitVec.twoPow 32 0 from rfl, BitVec.getLsbD_twoPow]
    simp [eq_comm]
  have h2 : (32#32).getLsbD b = decide (b = 5) := by
    rw [show (32#32 : BitVec 32) = BitVec.twoPow 32 5 from rfl, BitVec.getLsbD_twoPow]
    simp [eq_comm]
  cases ie <;> cases pe <;> simp [setFlags, BitVec.getLsbD_or, h1, h2]

@[simp] theorem setFlags_false (m : BitVec 32) : setFlags m false false = m := by simp [setFlags]

@[simp] theorem mxcsrIE_setFlags (m : BitVec 32) (ie pe : Bool) : mxcsrIE (setFlags m ie pe) = (mxcsrIE m || ie) := by
  rw [mxcsrIE, mxcsrIE, setFlags_getLsbD]; simp

@[simp] theorem mxcsrPE_setFlags (m : BitVec 32) (ie pe : Bool) : mxcsrPE (setFlags m ie pe) = (mxcsrPE m || pe) := by
  rw [mxcsrPE, mxcsrPE, setFlags_getLsbD]; simp

theorem setFlags_other (m : BitVec 32) (ie pe : Bool) {b : Nat} (h0 : b ≠ 0) (h5 : b ≠ 5) :
    (setFlags m ie pe).getLsbD b = m.getLsbD b := by
  simp [setFlags_getLsbD, h0, h5]

theorem setFlags_mono (m : BitVec 32) (ie pe : Bool) {b : Nat} (h : m.getLsbD b = true) :
    (setFlags m ie pe).getLsbD b = true := by
  simp [setFlags_getLsbD, h]

theorem mxcsrReserved_setFlags (m : BitVec 32) (ie pe : Bool) : mxcsrReserved (setFlags m ie pe) = mxcsrReserved m := by
  apply BitVec.eq_of_getLsbD_eq
  intro i hi
  simp only [mxcsrReserved, BitVec.getLsbD_extractLsb', hi, decide_true, Bool.true_and]
  exact setFlags_other m ie pe (by omega) (by omega)

/-- Every way the flags can come out is a `setFlags`. -/
theorem faultFlags_eq_setFlags (m : BitVec 32) (ie pe : Bool) (n : Nat) : ∃ a b, faultFlags m ie pe n = setFlags m a b := by
  unfold faultFlags
  split <;> exact ⟨_, _, rfl⟩

end Sys2Proof.Machine
end

