-- ==== Sys2Proof/Laws/Fetch.lean ====
section
/-! SUPPORT. What the fetch can do: it draws the bytes that stand at `pc`, up to the first that cannot be had; and what a step
can do. -/

namespace Sys2Proof.Machine

/-- Bytes that stand at `a`, and may be fetched, are the first bytes drawn from `a`. -/
theorem fetchFrom_of_code {t : List XlatRule} {m : List Host.Cell} {a : Addr} {bs : List Byte} {n : Nat}
    (h : ∀ i, i < bs.length → Memory.read m (a + BitVec.ofNat 64 i).toNat = bs.getD i 0 ∧
      translateAccess t (a + BitVec.ofNat 64 i) 1 .fetch = .allow)
    (hn : bs.length ≤ n) (ha : a.toNat + bs.length ≤ 2 ^ 64) :
    ∃ more stop, fetchFrom t m a n = (bs ++ more, stop) ∧
      (a.toNat + bs.length < 2 ^ 64 →
        fetchFrom t m (a + BitVec.ofNat 64 bs.length) (n - bs.length) = (more, stop)) := by
  induction bs generalizing a n with
  | nil => exact ⟨_, _, rfl, fun _ => by simp⟩
  | cons b rest ih =>
    obtain ⟨k, rfl⟩ : ∃ k, n = k + 1 := ⟨n - 1, by simp at hn; omega⟩
    simp only [List.length_cons] at hn ha
    have h0 := h 0 (by simp)
    simp only [BitVec.ofNat_eq_ofNat, BitVec.add_zero, List.getD_cons_zero] at h0
    have hstep : ∀ i, a + BitVec.ofNat 64 (i + 1) = a + 1 + BitVec.ofNat 64 i := fun i => by
      rw [BitVec.ofNat_add, BitVec.add_comm (BitVec.ofNat 64 i), ← BitVec.add_assoc]
      rfl
    rw [fetchFrom, h0.2]
    by_cases hlast : a = BitVec.allOnes 64
    · have hr : rest = [] := by
        have : a.toNat = 2 ^ 64 - 1 := by rw [hlast]; decide
        exact List.length_eq_zero_iff.mp (by omega)
      subst hr
      refine ⟨[], .wraps, ?_, ?_⟩
      · simp only [if_pos hlast, h0.1]
        rfl
      · have : a.toNat = 2 ^ 64 - 1 := by rw [hlast]; decide
        intro h; simp at h; omega
    · have hlt : a.toNat + 1 < 2 ^ 64 := by
        have := a.isLt
        rcases Nat.lt_or_ge (a.toNat + 1) (2 ^ 64) with h | h
        · exact h
        · exact absurd (BitVec.eq_of_toNat_eq (by rw [show (BitVec.allOnes 64).toNat = 2 ^ 64 - 1 by decide]; omega)) hlast
      have hnext : (a + 1).toNat = a.toNat + 1 := by
        rw [BitVec.toNat_add, show BitVec.toNat (1 : Addr) = 1 from rfl]; omega
      obtain ⟨more, stop, he, ht⟩ := ih (a := a + 1) (n := k)
        (fun i hi => by
          have := h (i + 1) (by simpa using hi)
          rw [hstep] at this
          simpa using this) (by omega) (by omega)
      refine ⟨more, stop, ?_, fun hb => ?_⟩
      · simp only [if_neg hlast, he, h0.1, List.cons_append]
      · rw [List.length_cons, hstep, Nat.add_sub_add_right]
        exact ht (by simp at hb; omega)

/-- Code at `pc` is what the fetch draws first. -/
theorem fetch_of_codeAt {s : State} {bs : List Byte} (h : CodeAt s.pc bs s) (hn : bs.length ≤ 15)
    (hb : s.pc.toNat + bs.length ≤ 2 ^ 64) : ∃ more stop, s.fetch = (bs ++ more, stop) := by
  obtain ⟨more, stop, he, _⟩ := fetchFrom_of_code h hn hb
  exact ⟨more, stop, he⟩

/-- The fetch ends at a byte that `Translate` does not allow. -/
theorem fetchFrom_of_stopped {t : List XlatRule} {m : List Host.Cell} {a : Addr} {n : Nat}
    (h : translateAccess t a 1 .fetch ≠ .allow) : (fetchFrom t m a (n + 1)).1 = [] := by
  rw [fetchFrom]
  split <;> first | rfl | exact absurd ‹_› h

/-- A fetch that cannot go on never answers a next state. -/
theorem fetchFault_not_next {drawn : List Byte × FetchStop} {s t : State} : fetchFault drawn s ≠ .next t := by
  intro h
  unfold fetchFault at h
  split at h
  · cases h
  · split at h <;> cases h
  · cases h
  · cases h
  · cases h

/-- A fault of the fetch leaves the state as it was. -/
theorem fetchFault_fault {drawn : List Byte × FetchStop} {s : State} {f : Fault} (h : fetchFault drawn s = .fault f) :
    f.left = s := by
  unfold fetchFault at h
  split at h
  · cases h; rfl
  · split at h <;> cases h
    rfl
  · cases h; rfl
  · cases h
  · cases h

/-- If a step answers a next state: the machine was in 64-bit mode, and the bytes fetched decode to the instruction that
answered it. -/
theorem step_next {s t : State} (h : step s = .next t) :
    s.mode = .bits64 ∧ ∃ i len, decode s.saeAnyLL s.fetch.1 = .form i len ∧ exec i s = .next t := by
  unfold step at h
  split at h
  · cases h
  · rename_i hm
    refine ⟨not_not.mp hm, ?_⟩
    split at h
    · exact ⟨_, _, ‹_›, h⟩
    · cases h
    · cases h
    · cases h
    · cases h
    · exact absurd h fetchFault_not_next

/-- If a step answers a fault: it leaves the state as it was, or it is the fault of the instruction decoded. -/
theorem step_fault {s : State} {f : Fault} (h : step s = .fault f) :
    f.left = s ∨ ∃ i len, decode s.saeAnyLL s.fetch.1 = .form i len ∧ exec i s = .fault f := by
  unfold step at h
  split at h
  · cases h
  · split at h
    · exact .inr ⟨_, _, ‹_›, h⟩
    · cases h; exact .inl rfl
    · cases h
    · cases h
    · cases h
    · exact .inl (fetchFault_fault h)

end Sys2Proof.Machine
end

