-- ==== Sys2Proof/Laws/Memory.lean ====
section
/-! SUPPORT. The laws of memory: a read after a write, and the canonical form, which every operation keeps. -/

namespace Sys2Proof.Machine

theorem Memory.wfFrom_cons {lo k : Nat} {v : Byte} {rest : List Host.Cell} :
    Memory.wfFrom lo ((k, v) :: rest) = true ↔
      lo ≤ k ∧ k < 2 ^ 64 ∧ v ≠ Config.unlistedByte ∧ Memory.wfFrom (k + 1) rest = true := by
  rw [Memory.wfFrom, Bool.and_eq_true, Bool.and_eq_true, Bool.and_eq_true, decide_eq_true_eq, decide_eq_true_eq,
    decide_eq_true_eq, and_assoc, and_assoc]

theorem Memory.wfFrom_mono {lo lo' : Nat} {m : List Host.Cell} (h : lo ≤ lo') (hm : Memory.wfFrom lo' m = true) :
    Memory.wfFrom lo m = true := by
  cases m with
  | nil => rfl
  | cons c rest =>
    obtain ⟨k, v⟩ := c
    have := Memory.wfFrom_cons.mp hm
    exact Memory.wfFrom_cons.mpr ⟨by omega, this.2⟩

/-- Below its first cell a canonical memory lists nothing. -/
theorem Memory.read_of_lt {lo a : Nat} {m : List Host.Cell} (hm : Memory.wfFrom lo m = true) (h : a < lo) :
    Memory.read m a = Config.unlistedByte := by
  induction m generalizing lo with
  | nil => rfl
  | cons c rest ih =>
    obtain ⟨k, v⟩ := c
    have := Memory.wfFrom_cons.mp hm
    rw [Memory.read, if_neg (by omega)]
    exact ih this.2.2.2 (by omega)

theorem Memory.read_consCell {a b : Nat} {v : Byte} {rest : List Host.Cell} (hr : Memory.wfFrom (a + 1) rest = true) :
    Memory.read (Memory.consCell a v rest) b = if a = b then v else Memory.read rest b := by
  unfold Memory.consCell
  split_ifs with hv hab hab
  · subst hab hv; exact Memory.read_of_lt hr (by omega)
  · rfl
  · subst hab; simp [Memory.read]
  · simp [Memory.read, hab]

theorem Memory.wfFrom_consCell {lo a : Nat} {v : Byte} {rest : List Host.Cell} (hlo : lo ≤ a) (ha : a < 2 ^ 64)
    (hr : Memory.wfFrom (a + 1) rest = true) : Memory.wfFrom lo (Memory.consCell a v rest) = true := by
  unfold Memory.consCell
  split_ifs with hv
  · exact Memory.wfFrom_mono (by omega) hr
  · exact Memory.wfFrom_cons.mpr ⟨hlo, ha, hv, hr⟩

/-- A write keeps the canonical form. -/
theorem Memory.wfFrom_write {lo a : Nat} {m : List Host.Cell} (v : Byte) (hm : Memory.wfFrom lo m = true) (hlo : lo ≤ a)
    (ha : a < 2 ^ 64) : Memory.wfFrom lo (Memory.write m a v) = true := by
  induction m generalizing lo with
  | nil => exact Memory.wfFrom_consCell hlo ha rfl
  | cons c rest ih =>
    obtain ⟨k, w⟩ := c
    obtain ⟨h1, h2, h3, h4⟩ := Memory.wfFrom_cons.mp hm
    rw [Memory.write]
    split_ifs with hlt heq
    · exact Memory.wfFrom_consCell hlo ha (Memory.wfFrom_cons.mpr ⟨hlt, h2, h3, h4⟩)
    · subst heq; exact Memory.wfFrom_consCell hlo ha h4
    · exact Memory.wfFrom_cons.mpr ⟨h1, h2, h3, ih h4 (by omega)⟩

/-- A read after a write gives the byte written, and every other byte as before. -/
theorem Memory.read_write {lo a : Nat} {m : List Host.Cell} (v : Byte) (b : Nat) (hm : Memory.wfFrom lo m = true) :
    Memory.read (Memory.write m a v) b = if a = b then v else Memory.read m b := by
  induction m generalizing lo with
  | nil => exact Memory.read_consCell (rest := []) rfl
  | cons c rest ih =>
    obtain ⟨k, w⟩ := c
    obtain ⟨h1, h2, h3, h4⟩ := Memory.wfFrom_cons.mp hm
    rw [Memory.write]
    by_cases hlt : a < k
    · rw [if_pos hlt, Memory.read_consCell (Memory.wfFrom_cons.mpr ⟨hlt, h2, h3, h4⟩)]
    · by_cases heq : a = k
      · subst heq
        rw [if_neg hlt, if_pos rfl, Memory.read_consCell h4, Memory.read]
        split_ifs <;> rfl
      · rw [if_neg hlt, if_neg heq, Memory.read, Memory.read, ih h4]
        split_ifs <;> first | rfl | omega

/-- Storing bytes keeps the canonical form. -/
theorem wf_storeBytes {m : List Host.Cell} (a : Addr) (bs : List Byte) (hm : Memory.wf m = true) :
    Memory.wf (storeBytes m a bs) = true := by
  induction bs generalizing m a with
  | nil => exact hm
  | cons b rest ih => exact ih _ (Memory.wfFrom_write b hm (Nat.zero_le _) a.isLt)

/-- A byte that no stored byte's address reaches reads as before. -/
theorem read_storeBytes_outside {m : List Host.Cell} {a : Addr} {bs : List Byte} {b : Addr} (hm : Memory.wf m = true)
    (h : ∀ i, i < bs.length → a + BitVec.ofNat 64 i ≠ b) :
    Memory.read (storeBytes m a bs) b.toNat = Memory.read m b.toNat := by
  induction bs generalizing m a with
  | nil => rfl
  | cons v rest ih =>
    have ha : a.toNat ≠ b.toNat := fun e => h 0 (by simp) (by simpa using BitVec.eq_of_toNat_eq e)
    rw [storeBytes, ih (Memory.wfFrom_write v hm (Nat.zero_le _) a.isLt), Memory.read_write v _ hm, if_neg ha]
    intro i hi
    have := h (i + 1) (by simpa using hi)
    rwa [BitVec.ofNat_add, BitVec.add_comm (BitVec.ofNat 64 i), ← BitVec.add_assoc] at this

/-- A stored byte reads back, where the stored range does not wrap onto itself. -/
theorem read_storeBytes {m : List Host.Cell} {a : Addr} {bs : List Byte} {i : Nat} (hm : Memory.wf m = true)
    (hi : i < bs.length) (hlen : bs.length ≤ 2 ^ 64) :
    Memory.read (storeBytes m a bs) (a + BitVec.ofNat 64 i).toNat = bs.getD i 0 := by
  induction bs generalizing m a i with
  | nil => simp at hi
  | cons v rest ih =>
    have hm' := Memory.wfFrom_write v hm (Nat.zero_le _) a.isLt
    cases i with
    | zero =>
      rw [storeBytes]
      simp only [List.length_cons] at hlen
      rw [show a + BitVec.ofNat 64 0 = a by simp, read_storeBytes_outside hm', Memory.read_write v _ hm, if_pos rfl]
      · simp
      · intro j hj e
        have := congrArg BitVec.toNat e
        simp only [BitVec.toNat_add, BitVec.toNat_ofNat] at this
        have ha := a.isLt
        rw [show BitVec.toNat (1 : Addr) = 1 from rfl] at this
        omega
    | succ i =>
      simp only [List.length_cons] at hi hlen
      have := ih (m := Memory.write m a.toNat v) (a := a + 1) (i := i) hm' (by omega) (by omega)
      rw [storeBytes, BitVec.ofNat_add, BitVec.add_comm (BitVec.ofNat 64 i), ← BitVec.add_assoc]
      simpa using this

/-- The memory after reset has the canonical form. -/
theorem reset_mem_wf : Memory.wf State.reset.mem = true := rfl

end Sys2Proof.Machine
end

