-- ==== Sys2Proof/Laws/Ops.lean ====
section
/-! SUPPORT. One lemma per shared operation, saying once everything it can do. -/

namespace Sys2Proof.Machine

/-! ### The program counter -/

theorem nextPcOk_iff (s : State) (n : Nat) : s.nextPcOk n = true ↔ NextPcInRange n s := by
  rw [State.nextPcOk, Bool.and_eq_true, decide_eq_true_eq, bne_iff_ne]

theorem advance_of_inRange {n : Nat} {s : State} (h : s.nextPcOk n = true) :
    advance n s = .next { s with pc := s.pc + BitVec.ofNat 64 n } := by
  rw [advance, if_pos h]

theorem advance_of_not_inRange {n : Nat} {s : State} (h : s.nextPcOk n = false) : advance n s = .refused .pcLeavesRange := by
  simp [advance, h]

/-- If `advance` answers a next state, `pc + len` was in range and only `pc` differs. -/
theorem advance_next {n : Nat} {s t : State} (h : advance n s = .next t) :
    s.nextPcOk n = true ∧ t = { s with pc := s.pc + BitVec.ofNat 64 n } := by
  unfold advance at h
  split at h
  · exact ⟨‹_›, by injection h with h; exact h.symm⟩
  · cases h

theorem advance_not_fault {n : Nat} {s : State} {f : Fault} : advance n s ≠ .fault f := by
  unfold advance
  split <;> simp

/-! ### The gate -/

theorem gated_of_ready {vl : VLen} {s : State} (h : Ready vl s) (body : Result) : gated vl s body = body := by
  obtain ⟨h1, h2, h3, h4⟩ := h
  simp [gated, h1, h2, h3, h4]

/-- The gate either lets the body run, and then the machine is ready, or answers #UD, #NM or a refusal with the state
as it was. -/
theorem gated_cases (vl : VLen) (s : State) (body : Result) :
    (Ready vl s ∧ gated vl s body = body) ∨ gated vl s body = .fault (.invalidOpcode s) ∨
      gated vl s body = .fault (.deviceNotAvailable s) ∨ gated vl s body = .refused .modeNotAdmitted := by
  unfold gated
  cases hm : s.mode <;> simp only [raise, reduceCtorEq, or_true, true_or]
  by_cases ho : s.osEnabled = true <;> by_cases hf : s.featureOk vl = true <;> by_cases ht : s.cr0Ts = true <;>
    simp [Ready, hm, ho, hf, ht]

/-- If a gated body answers a next state, the machine was ready and the body answered it. -/
theorem gated_next {vl : VLen} {s t : State} {body : Result} (h : gated vl s body = .next t) :
    Ready vl s ∧ body = .next t := by
  rcases gated_cases vl s body with ⟨hr, he⟩ | he | he | he <;> rw [he] at h
  · exact ⟨hr, h⟩
  all_goals cases h

/-- If a gated body answers a fault, the fault leaves the state as it was or the body answered it. -/
theorem gated_fault {vl : VLen} {s : State} {f : Fault} {body : Result} (h : gated vl s body = .fault f) :
    f.left = s ∨ (Ready vl s ∧ body = .fault f) := by
  rcases gated_cases vl s body with ⟨hr, he⟩ | he | he | he <;> rw [he] at h
  · exact .inr ⟨hr, h⟩
  · injection h with h; subst h; exact .inl rfl
  · injection h with h; subst h; exact .inl rfl
  · cases h

/-! ### The memory operand -/

theorem withOperand_of_readable {s : State} {ss : Bool} {a : Addr} {n : Nat} (h : Readable a n s) (body : Result) :
    withOperand s ss a n body = body := by
  simp only [Readable] at h
  simp [withOperand, h]

/-- If an operand access answers a next state, the operand was readable and the body answered it. -/
theorem withOperand_next {s t : State} {ss : Bool} {a : Addr} {n : Nat} {body : Result}
    (h : withOperand s ss a n body = .next t) : Readable a n s ∧ body = .next t := by
  unfold withOperand at h
  split at h
  · exact ⟨‹_›, h⟩
  · split at h <;> cases h
  · cases h
  · cases h

/-- If an operand access answers a fault, the fault leaves the state as it was or the body answered it. -/
theorem withOperand_fault {s : State} {ss : Bool} {a : Addr} {n : Nat} {body : Result} {f : Fault}
    (h : withOperand s ss a n body = .fault f) : f.left = s ∨ (Readable a n s ∧ body = .fault f) := by
  unfold withOperand at h
  split at h
  · exact .inr ⟨‹_›, h⟩
  · split at h <;> (injection h with h; subst h; exact .inl rfl)
  · injection h with h; subst h; exact .inl rfl
  · cases h

/-! ### The conditions -/

theorem anyEnabled_iff (s : State) (vl : VLen) (k : Mask) (p : Fin 8 → Bool) :
    anyEnabled s vl k p = true ↔ ∃ j, On s vl k j ∧ p j = true := by
  rw [anyEnabled, anyLane_iff]
  simp only [Bool.and_eq_true, decide_eq_true_eq, On]

theorem ieAny_iff (s : State) (vl : VLen) (k : Mask) (imm8 : BitVec 8) (tmp : Zmm) :
    ieAny s vl k imm8 tmp = true ↔ ∃ j, On s vl k j ∧ (roundElement (lane tmp j) imm8 s.mxcsr).ie = true :=
  anyEnabled_iff s vl k _

theorem peAny_iff (s : State) (vl : VLen) (k : Mask) (imm8 : BitVec 8) (tmp : Zmm) :
    peAny s vl k imm8 tmp = true ↔ ∃ j, On s vl k j ∧ (roundElement (lane tmp j) imm8 s.mxcsr).pe = true :=
  anyEnabled_iff s vl k _

theorem lane_lowLanes {vl : VLen} {v : Zmm} {j : Fin 8} (h : j.val < kl vl) : lane (lowLanes vl v) j = lane v j := by
  simp [lowLanes, h]

theorem lane_loadFull {s : State} {vl : VLen} {a : Addr} {j : Fin 8} (h : j.val < kl vl) :
    lane (loadFull s vl a) j = fullElement s a j := by
  simp [loadFull, fullElement, h]

theorem lane_loadBcst {s : State} {vl : VLen} {a : Addr} {j : Fin 8} (h : j.val < kl vl) :
    lane (loadBcst s vl a) j = readQword s a := by
  simp [loadBcst, h]

theorem lane_newDest (s : State) (vl : VLen) (dst : BitVec 5) (k : Mask) (imm8 : BitVec 8) (tmp : Zmm) (j : Fin 8) :
    lane (newDest s vl dst k imm8 tmp) j =
      if j.val < kl vl then
        if enabled s k j = true then (roundElement (lane tmp j) imm8 s.mxcsr).dest
        else if k.z = true then 0
        else lane (s.readZmm dst) j
      else 0 := by
  simp [newDest]

/-! ### From the source to the outcome -/

/-- What a completed instruction leaves: the destination, the flags and `pc`. -/
def finalState (s : State) (dst : BitVec 5) (new : Zmm) (ie pe : Bool) (len : Nat) : State :=
  { s.writeZmm dst new with mxcsr := setFlags s.mxcsr ie pe, pc := s.pc + BitVec.ofNat 64 len }

theorem complete_of_inRange {s : State} {n : Nat} (h : s.nextPcOk n = true) (dst : BitVec 5) (new : Zmm) (ie pe : Bool) :
    complete s dst new ie pe n = .next (finalState s dst new ie pe n) :=
  advance_of_inRange h

theorem complete_of_not_inRange {s : State} {n : Nat} (h : s.nextPcOk n = false) (dst : BitVec 5) (new : Zmm) (ie pe : Bool) :
    complete s dst new ie pe n = .refused .pcLeavesRange :=
  advance_of_not_inRange h

theorem complete_next {s t : State} {dst : BitVec 5} {new : Zmm} {ie pe : Bool} {n : Nat}
    (h : complete s dst new ie pe n = .next t) : s.nextPcOk n = true ∧ t = finalState s dst new ie pe n :=
  advance_next h

theorem roundInto_eq (s : State) (vl : VLen) (dst : BitVec 5) (k : Mask) (imm8 : BitVec 8) (n : Nat) (tmp : Zmm) :
    roundInto s vl dst k imm8 n tmp =
      if unmasked s.mxcsr (ieAny s vl k imm8 tmp) (peAny s vl k imm8 tmp) = true then
        simdFault (ieAny s vl k imm8 tmp) (peAny s vl k imm8 tmp) s
      else complete s dst (newDest s vl dst k imm8 tmp) (ieAny s vl k imm8 tmp) (peAny s vl k imm8 tmp) n := rfl

/-- The unmasked response is a fault: what it leaves differs in the flags and the draws it took. -/
theorem simdFault_eq (ie pe : Bool) (s : State) :
    simdFault ie pe s = .fault ((if s.cr4Osxmmexcpt then Fault.simdException else Fault.invalidOpcode)
      { s with mxcsr := faultFlags s.mxcsr ie pe s.draws, draws := s.draws + faultDraws ie pe }) := by
  simp only [simdFault, raise]
  split <;> rfl

/-- If `roundInto` answers a next state, nothing was unmasked and that state is `finalState`. -/
theorem roundInto_next {s t : State} {vl : VLen} {dst : BitVec 5} {k : Mask} {imm8 : BitVec 8} {n : Nat} {tmp : Zmm}
    (h : roundInto s vl dst k imm8 n tmp = .next t) :
    unmasked s.mxcsr (ieAny s vl k imm8 tmp) (peAny s vl k imm8 tmp) = false ∧ s.nextPcOk n = true ∧
      t = finalState s dst (newDest s vl dst k imm8 tmp) (ieAny s vl k imm8 tmp) (peAny s vl k imm8 tmp) n := by
  rw [roundInto_eq] at h
  split at h
  · rw [simdFault_eq] at h
    cases h
  · rename_i hu
    exact ⟨by simpa using hu, complete_next h⟩

/-- If `roundInto` answers a fault, it is the unmasked response. -/
theorem roundInto_fault {s : State} {vl : VLen} {dst : BitVec 5} {k : Mask} {imm8 : BitVec 8} {n : Nat} {tmp : Zmm}
    {f : Fault} (h : roundInto s vl dst k imm8 n tmp = .fault f) :
    simdFault (ieAny s vl k imm8 tmp) (peAny s vl k imm8 tmp) s = .fault f := by
  rw [roundInto_eq] at h
  split at h
  · exact h
  · exact absurd h advance_not_fault

/-! ### The instructions -/

/-- What `exec` reads into `TMP_SRC` for each form. -/
def tmpSrc (s : State) : Instr → Zmm
  | .vrndscalepdXmmReg _ src _ _ => lowLanes .v128 (s.readZmm src)
  | .vrndscalepdXmmMem _ m _ _ => loadFull s .v128 (fullAddr .v128 m s)
  | .vrndscalepdXmmBcst _ m _ _ => loadBcst s .v128 (bcstAddr m s)
  | .vrndscalepdYmmReg _ src _ _ => lowLanes .v256 (s.readZmm src)
  | .vrndscalepdYmmMem _ m _ _ => loadFull s .v256 (fullAddr .v256 m s)
  | .vrndscalepdYmmBcst _ m _ _ => loadBcst s .v256 (bcstAddr m s)
  | .vrndscalepdZmmReg _ src _ _ => lowLanes .v512 (s.readZmm src)
  | .vrndscalepdZmmMem _ m _ _ => loadFull s .v512 (fullAddr .v512 m s)
  | .vrndscalepdZmmBcst _ m _ _ => loadBcst s .v512 (bcstAddr m s)
  | .vrndscalepdZmmSae _ src _ _ => lowLanes .v512 (s.readZmm src)

/-- Every element of `TMP_SRC` below KL is the form's source element. -/
theorem lane_tmpSrc (s : State) (i : Instr) {j : Fin 8} (h : j.val < kl (vlenOf i)) :
    lane (tmpSrc s i) j = sourceOf s i j := by
  cases i with
  | vrndscalepdXmmReg | vrndscalepdYmmReg | vrndscalepdZmmReg | vrndscalepdZmmSae => exact lane_lowLanes h
  | vrndscalepdXmmMem | vrndscalepdYmmMem | vrndscalepdZmmMem => exact lane_loadFull h
  | vrndscalepdXmmBcst | vrndscalepdYmmBcst | vrndscalepdZmmBcst => exact lane_loadBcst h

/-- The body of every form but `{sae}`, and of `{sae}`. -/
def formBody (s : State) (i : Instr) : Result :=
  if isSae i then roundIntoSae s (vlenOf i) (dstOf i) (maskOf i) (immOf i) i.length (tmpSrc s i)
  else roundInto s (vlenOf i) (dstOf i) (maskOf i) (immOf i) i.length (tmpSrc s i)

/-- `body` behind the access to a memory operand, where there is one. -/
def behindOperand (s : State) (o : Option (Addr × Nat × Bool)) (body : Result) : Result :=
  match o with
  | none => body
  | some (a, n, ss) => withOperand s ss a n body

/-- Every form is the same three things in a row: the gate, the operand if it has one, and the body. -/
theorem exec_eq (i : Instr) (s : State) :
    exec i s = gated (vlenOf i) s (behindOperand s (operandOf s i) (formBody s i)) := by
  cases i <;> rfl

/-- If an instruction answers a next state: the machine was ready, the operand readable, `pc + len` in range, nothing
unmasked, and the state is `finalState`. -/
theorem exec_next {i : Instr} {s t : State} (h : exec i s = .next t) :
    Ready (vlenOf i) s ∧ (∀ a n ss, operandOf s i = some (a, n, ss) → Readable a n s) ∧ s.nextPcOk i.length = true ∧
      ∃ ie pe, (isSae i = true → ie = false ∧ pe = false) ∧
        (isSae i = false → ie = ieAny s (vlenOf i) (maskOf i) (immOf i) (tmpSrc s i) ∧
          pe = peAny s (vlenOf i) (maskOf i) (immOf i) (tmpSrc s i) ∧ unmasked s.mxcsr ie pe = false) ∧
        t = finalState s (dstOf i) (newDest s (vlenOf i) (dstOf i) (maskOf i) (immOf i) (tmpSrc s i)) ie pe i.length := by
  rw [exec_eq] at h
  obtain ⟨hr, h⟩ := gated_next h
  have key : (∀ a n ss, operandOf s i = some (a, n, ss) → Readable a n s) ∧ formBody s i = .next t := by
    cases ho : operandOf s i with
    | none => rw [ho] at h; exact ⟨fun _ _ _ e => by simp at e, h⟩
    | some o =>
      obtain ⟨a, n, ss⟩ := o
      rw [ho] at h
      obtain ⟨h1, h2⟩ := withOperand_next h
      exact ⟨fun _ _ _ e => by simp only [Option.some.injEq, Prod.mk.injEq] at e; rw [← e.1, ← e.2.1]; exact h1, h2⟩
  refine ⟨hr, key.1, ?_⟩
  have hb := key.2
  unfold formBody at hb
  split at hb
  · obtain ⟨h1, h2⟩ := complete_next hb
    exact ⟨h1, false, false, by simp, by simp_all, h2⟩
  · obtain ⟨h1, h2, h3⟩ := roundInto_next hb
    exact ⟨h2, _, _, by simp_all, fun _ => ⟨rfl, rfl, h1⟩, h3⟩

/-- If an instruction answers a fault, the fault leaves the state as it was or is the unmasked response. -/
theorem exec_fault {i : Instr} {s : State} {f : Fault} (h : exec i s = .fault f) :
    f.left = s ∨ ∃ ie pe, simdFault ie pe s = .fault f := by
  rw [exec_eq] at h
  rcases gated_fault h with h | ⟨_, h⟩
  · exact .inl h
  · have key : f.left = s ∨ formBody s i = .fault f := by
      cases ho : operandOf s i with
      | none => rw [ho] at h; exact .inr h
      | some o => rw [ho] at h; exact (withOperand_fault h).imp id (·.2)
    refine key.imp id fun hb => ?_
    unfold formBody at hb
    split at hb
    · exact absurd hb advance_not_fault
    · exact ⟨_, _, roundInto_fault hb⟩

end Sys2Proof.Machine
end

