-- ==== Sys2Proof/Laws/PerInstr.lean ====
section
/-! SUPPORT. A statement made per instruction: the encoding is as long as 30_encoding.md R50 says. -/

namespace Sys2Proof.Laws

theorem encodeReg_length (vl : VLen) (b : Bool) (dst src : BitVec 5) (k : Mask) (imm8 : BitVec 8) :
    (encodeReg vl b dst src k imm8).length = regLength := rfl

theorem encodeMem_length (vl : VLen) (b : Bool) (dst : BitVec 5) (m : MemOperand) (k : Mask) (imm8 : BitVec 8) :
    (encodeMem vl b dst m k imm8).length = memLength m := by
  rcases m with ⟨_, _ | _ | _⟩ | _ | ⟨_, _, _, _ | _ | _⟩ | _ <;> rfl

theorem memLength_bounds (m : MemOperand) : 7 ≤ memLength m ∧ memLength m ≤ 12 := by
  rcases m with ⟨_, _ | _ | _⟩ | _ | ⟨_, _, _, _ | _ | _⟩ | _ <;>
    simp [memLength, MemOperand.size, Disp.size]

/-- The encoding has the instruction's length, which lies between 7 and 12 bytes (30_encoding.md R50). -/
def EncodedLength.Statement (i : Instr) : Prop := (encode i).length = i.length ∧ 7 ≤ i.length ∧ i.length ≤ 12

theorem EncodedLength.ofReg (vl : VLen) (b : Bool) (dst src : BitVec 5) (k : Mask) (imm8 : BitVec 8) :
    (encodeReg vl b dst src k imm8).length = regLength ∧ 7 ≤ regLength ∧ regLength ≤ 12 :=
  ⟨encodeReg_length vl b dst src k imm8, by decide, by decide⟩

theorem EncodedLength.ofMem (vl : VLen) (b : Bool) (dst : BitVec 5) (m : MemOperand) (k : Mask) (imm8 : BitVec 8) :
    (encodeMem vl b dst m k imm8).length = memLength m ∧ 7 ≤ memLength m ∧ memLength m ≤ 12 :=
  ⟨encodeMem_length vl b dst m k imm8, memLength_bounds m⟩

theorem EncodedLength.vrndscalepdXmmReg (dst src : BitVec 5) (k : Mask) (imm8 : BitVec 8) :
    EncodedLength.Statement (.vrndscalepdXmmReg dst src k imm8) := EncodedLength.ofReg _ _ _ _ _ _

theorem EncodedLength.vrndscalepdXmmMem (dst : BitVec 5) (m : MemOperand) (k : Mask) (imm8 : BitVec 8) :
    EncodedLength.Statement (.vrndscalepdXmmMem dst m k imm8) := EncodedLength.ofMem _ _ _ _ _ _

theorem EncodedLength.vrndscalepdXmmBcst (dst : BitVec 5) (m : MemOperand) (k : Mask) (imm8 : BitVec 8) :
    EncodedLength.Statement (.vrndscalepdXmmBcst dst m k imm8) := EncodedLength.ofMem _ _ _ _ _ _

theorem EncodedLength.vrndscalepdYmmReg (dst src : BitVec 5) (k : Mask) (imm8 : BitVec 8) :
    EncodedLength.Statement (.vrndscalepdYmmReg dst src k imm8) := EncodedLength.ofReg _ _ _ _ _ _

theorem EncodedLength.vrndscalepdYmmMem (dst : BitVec 5) (m : MemOperand) (k : Mask) (imm8 : BitVec 8) :
    EncodedLength.Statement (.vrndscalepdYmmMem dst m k imm8) := EncodedLength.ofMem _ _ _ _ _ _

theorem EncodedLength.vrndscalepdYmmBcst (dst : BitVec 5) (m : MemOperand) (k : Mask) (imm8 : BitVec 8) :
    EncodedLength.Statement (.vrndscalepdYmmBcst dst m k imm8) := EncodedLength.ofMem _ _ _ _ _ _

theorem EncodedLength.vrndscalepdZmmReg (dst src : BitVec 5) (k : Mask) (imm8 : BitVec 8) :
    EncodedLength.Statement (.vrndscalepdZmmReg dst src k imm8) := EncodedLength.ofReg _ _ _ _ _ _

theorem EncodedLength.vrndscalepdZmmMem (dst : BitVec 5) (m : MemOperand) (k : Mask) (imm8 : BitVec 8) :
    EncodedLength.Statement (.vrndscalepdZmmMem dst m k imm8) := EncodedLength.ofMem _ _ _ _ _ _

theorem EncodedLength.vrndscalepdZmmBcst (dst : BitVec 5) (m : MemOperand) (k : Mask) (imm8 : BitVec 8) :
    EncodedLength.Statement (.vrndscalepdZmmBcst dst m k imm8) := EncodedLength.ofMem _ _ _ _ _ _

theorem EncodedLength.vrndscalepdZmmSae (dst src : BitVec 5) (k : Mask) (imm8 : BitVec 8) :
    EncodedLength.Statement (.vrndscalepdZmmSae dst src k imm8) := EncodedLength.ofReg _ _ _ _ _ _

end Sys2Proof.Laws
end

