-- ==== Sys2Proof/Tests/Slice0.lean ====
section
/-! SUPPORT. Tests. Expected values are the spec's (95_test_vectors.md, the examples of 40_vrndscalepd.md) or hand calculation from its
tables; each test names its source. The last part holds, for every statement that has hypotheses, concrete data that meet them. -/

namespace Sys2Proof.Machine.Tests

/-! ### WellFormed: each check refuses an ill-formed term -/

/-- 30_encoding.md R66: zeroing without a writemask. -/
theorem test_wf_zeroing_needs_mask : (Instr.vrndscalepdXmmReg 1 2 ⟨0, true⟩ 0).wf = false := by decide

/-- 30_encoding.md R59: ModRM.rm = 100b spells a SIB byte, so RSP (and R12) is no base without one. -/
theorem test_wf_base_rsp_needs_sib : (Instr.vrndscalepdZmmMem 1 (.base 4 .absent) ⟨0, false⟩ 0).wf = false ∧
    (Instr.vrndscalepdZmmMem 1 (.base 12 (.disp8 0)) ⟨0, false⟩ 0).wf = false := by decide

/-- 30_encoding.md R59: with mod = 00b, rm = 101b is RIP-relative, so RBP (and R13) needs a displacement. -/
theorem test_wf_base_rbp_needs_disp : (Instr.vrndscalepdYmmBcst 1 (.base 5 .absent) ⟨0, false⟩ 0).wf = false ∧
    (Instr.vrndscalepdYmmBcst 1 (.base 13 .absent) ⟨0, false⟩ 0).wf = false ∧
    (Instr.vrndscalepdYmmBcst 1 (.base 13 (.disp8 0)) ⟨0, false⟩ 0).wf = true := by decide

/-- 30_encoding.md R59: with mod = 00b, SIB.base = 101b means no base register. -/
theorem test_wf_sib_rbp_needs_disp : (Instr.vrndscalepdXmmMem 1 (.sib 13 1 0 .absent) ⟨0, false⟩ 0).wf = false ∧
    (Instr.vrndscalepdXmmMem 1 (.sib 5 1 0 (.disp8 0)) ⟨0, false⟩ 0).wf = true := by decide

/-! ### Decoding, every constructor from a word written out from 30_encoding.md R50 to R66 -/

/-- R = R' = 1 (stored 0): dst = 31; src = 0. -/
theorem test_decode_xmm_reg : decode false [0x62, 0x63, 0xFD, 0x08, 0x09, 0xF8, 0x37] =
    .form (.vrndscalepdXmmReg 31 0 ⟨0, false⟩ 0x37) 7 := by decide

/-- B = 1 extends the base: [r8 + 16 * -1]; aaa = 2. -/
theorem test_decode_xmm_mem : decode false [0x62, 0xD3, 0xFD, 0x0A, 0x09, 0x50, 0xFF, 0x10] =
    .form (.vrndscalepdXmmMem 2 (.base 8 (.disp8 0xFF)) ⟨2, false⟩ 0x10) 8 := by decide

/-- b = 1 with a memory source: [rbx + disp32], z = 1, aaa = 7. -/
theorem test_decode_xmm_bcst : decode false [0x62, 0xF3, 0xFD, 0x9F, 0x09, 0x8B, 0x78, 0x56, 0x34, 0x12, 0xFF] =
    .form (.vrndscalepdXmmBcst 1 (.base 3 (.disp32 0x12345678)) ⟨7, true⟩ 0xFF) 11 := by decide

/-- X = B = 1 (stored 0): src = 31. -/
theorem test_decode_ymm_reg : decode false [0x62, 0x93, 0xFD, 0x29, 0x09, 0xC7, 0x04] =
    .form (.vrndscalepdYmmReg 0 31 ⟨1, false⟩ 0x04) 7 := by decide

/-- SIB 24h: base rsp, no index. -/
theorem test_decode_ymm_mem : decode false [0x62, 0xF3, 0xFD, 0x28, 0x09, 0x0C, 0x24, 0x00] =
    .form (.vrndscalepdYmmMem 1 (.sib 4 4 0 .absent) ⟨0, false⟩ 0x00) 8 := by decide

/-- SIB 8Dh with mod = 00b: no base, index rcx times 4, disp32. -/
theorem test_decode_ymm_bcst : decode false [0x62, 0xF3, 0xFD, 0x38, 0x09, 0x0C, 0x8D, 0x10, 0, 0, 0, 0x08] =
    .form (.vrndscalepdYmmBcst 1 (.sibNoBase 1 2 0x10) ⟨0, false⟩ 0x08) 12 := by decide

/-- R' = 1 alone: dst = 16 + 3; X = 1 alone: src = 16 + 5. -/
theorem test_decode_zmm_reg : decode false [0x62, 0xA3, 0xFD, 0xCC, 0x09, 0xDD, 0x0B] =
    .form (.vrndscalepdZmmReg 19 21 ⟨4, true⟩ 0x0B) 7 := by decide

/-- 95_test_vectors.md 3.3: `zmm30, [rax+r14*8+0x123], 0x7b`. -/
theorem test_decode_zmm_mem : decode false [0x62, 0x23, 0xFD, 0x48, 0x09, 0xB4, 0xF0, 0x23, 0x01, 0x00, 0x00, 0x7B] =
    .form (.vrndscalepdZmmMem 30 (.sib 0 14 3 (.disp32 0x123)) ⟨0, false⟩ 0x7B) 12 := by decide

/-- RIP-relative, disp32 = FFFFFFC0h. -/
theorem test_decode_zmm_bcst : decode false [0x62, 0xF3, 0xFD, 0x58, 0x09, 0x3D, 0xC0, 0xFF, 0xFF, 0xFF, 0x03] =
    .form (.vrndscalepdZmmBcst 7 (.rip 0xFFFFFFC0) ⟨0, false⟩ 0x03) 11 := by decide

/-- b = 1 with a register source. -/
theorem test_decode_zmm_sae : decode false [0x62, 0xF3, 0xFD, 0x59, 0x09, 0xCA, 0x03] =
    .form (.vrndscalepdZmmSae 1 2 ⟨1, false⟩ 0x03) 7 := by decide

/-- 30_encoding.md R68 and R69: W = 0, another opcode byte, and L'L = 11b. -/
theorem test_decode_rejects : decode false [0x62, 0xF3, 0x7D, 0x48, 0x09, 0xCA, 0x03] = .notThisInstruction ∧
    decode false [0x62, 0xF3, 0xFD, 0x48, 0x08, 0xCA, 0x03] = .notThisInstruction ∧
    decode false [0x62, 0xF3, 0xFD, 0x68, 0x09, 0xCA, 0x03] = .ud := by decide

/-- The host's numbering: byte 0 in bits 7..0, and zeros above `nbits`. -/
theorem test_table_word : decodeTableWord 48 0xC009087D0362 = none ∧
    decodeTableWord 48 0xC00908FD0362 = some (.vrndscalepdXmmReg 24 24 ⟨0, false⟩ 0) := by decide

/-- The `match` numbers of spec/opcode_table.json, as they stand there, for every row. -/
theorem test_table_match :
    ([0x6203FD0809C0, 0x6203FD080900, 0x6203FD180900, 0x6203FD2809C0, 0x6203FD280900, 0x6203FD380900, 0x6203FD4809C0,
      0x6203FD480900, 0x6203FD580900, 0x6203FD5809C0] : List Nat).map (decodeTableWord 48) =
    [some (.vrndscalepdXmmReg 24 24 ⟨0, false⟩ 0), some (.vrndscalepdXmmMem 24 (.base 8 .absent) ⟨0, false⟩ 0),
      some (.vrndscalepdXmmBcst 24 (.base 8 .absent) ⟨0, false⟩ 0), some (.vrndscalepdYmmReg 24 24 ⟨0, false⟩ 0),
      some (.vrndscalepdYmmMem 24 (.base 8 .absent) ⟨0, false⟩ 0), some (.vrndscalepdYmmBcst 24 (.base 8 .absent) ⟨0, false⟩ 0),
      some (.vrndscalepdZmmReg 24 24 ⟨0, false⟩ 0), some (.vrndscalepdZmmMem 24 (.base 8 .absent) ⟨0, false⟩ 0),
      some (.vrndscalepdZmmBcst 24 (.base 8 .absent) ⟨0, false⟩ 0), some (.vrndscalepdZmmSae 24 24 ⟨0, false⟩ 0)] := by decide

/-! ### The per-element function (95_test_vectors.md, part 2, and the examples of 40_vrndscalepd.md R83, R84) -/

/-- 2.5 in the four directions. -/
theorem test_element_directions : (roundElement 0x4004000000000000 0x00 0x1F80).dest = 0x4000000000000000 ∧
    (roundElement 0x4004000000000000 0x01 0x1F80).dest = 0x4000000000000000 ∧
    (roundElement 0x4004000000000000 0x02 0x1F80).dest = 0x4008000000000000 ∧
    (roundElement 0x4004000000000000 0x03 0x1F80).dest = 0x4000000000000000 := by decide

/-- -0.5 in the four directions: the sign stays. -/
theorem test_element_negative_half : (roundElement 0xBFE0000000000000 0x00 0x1F80).dest = 0x8000000000000000 ∧
    (roundElement 0xBFE0000000000000 0x01 0x1F80).dest = 0xBFF0000000000000 ∧
    (roundElement 0xBFE0000000000000 0x02 0x1F80).dest = 0x8000000000000000 ∧
    (roundElement 0xBFE0000000000000 0x03 0x1F80).dest = 0x8000000000000000 := by decide

/-- S3: 3.14159 to two fraction bits is 3.25, inexact. -/
theorem test_element_scaled : roundElement 0x400921F9F01B866E 0x20 0x1F80 = ⟨0x400A000000000000, false, true⟩ := by decide

/-- 40_vrndscalepd.md R85: a signalling NaN is quieted; a quiet one, an infinity and -0 come back. -/
theorem test_element_specials : roundElement 0x7FF0000000000001 0x00 0x1F80 = ⟨0x7FF8000000000001, true, false⟩ ∧
    roundElement 0xFFF8000000000002 0xF3 0x1F80 = ⟨0xFFF8000000000002, false, false⟩ ∧
    roundElement 0x7FF0000000000000 0x00 0x1F80 = ⟨0x7FF0000000000000, false, false⟩ ∧
    roundElement 0x8000000000000000 0x02 0x1F80 = ⟨0x8000000000000000, false, false⟩ := by decide

/-- X14, X15: the least denormal, rounded up, with DAZ on and off. -/
theorem test_element_daz : roundElement 1 0x02 0x1FC0 = ⟨0, false, false⟩ ∧
    roundElement 1 0x02 0x1F80 = ⟨0x3FF0000000000000, false, true⟩ := by decide +kernel

/-- X13: the direction from MXCSR.RC = 10b; with `imm8[2] = 0` RC is not read. -/
theorem test_element_rc : (roundElement 0x4004000000000000 0x04 0x5F80).dest = 0x4008000000000000 ∧
    (roundElement 0x4004000000000000 0x00 0x5F80).dest = 0x4000000000000000 := by decide

/-- 40_vrndscalepd.md R89: a large magnitude is unchanged; `2^52 - 0.5` rounds to `2^52`. -/
theorem test_element_large : roundElement 0x7E37E43C8800759C 0x00 0x1F80 = ⟨0x7E37E43C8800759C, false, false⟩ ∧
    roundElement 0x432FFFFFFFFFFFFF 0x00 0x1F80 = ⟨0x4330000000000000, false, true⟩ := by decide

/-! ### One step of each form (95_test_vectors.md, part 4, or by hand from 40_vrndscalepd.md R100 to R109) -/

/-- The machine after boot, with every element of `zmm1` at 6666666666666666h, as 95_test_vectors.md, part 4, has it. -/
def st : State := State.reset.boot.writeZmm 1 (Vector.replicate 8 0x6666666666666666)

/-- `st` with this source in `zmm2`. -/
def src (v : Zmm) : State := st.writeZmm 2 v

/-- `s` with the qwords at 1000h and 1008h. -/
def qwords (s : State) (lo hi : Word64) : State :=
  { s with mem := storeBytes s.mem 0x1000 ((List.range 16).map fun i => (hi ++ lo).extractLsb' (8 * i) 8),
           x := s.x.set 0 0x1000 }

/-- `s` with opmask register 1 at `k`. -/
def k1 (s : State) (k : BitVec 64) : State := { s with k := s.k.set 1 k }

/-- `s` with MXCSR at `m`. -/
def mx (s : State) (m : BitVec 32) : State := { s with mxcsr := m }

/-- `s` with these bytes at `pc`. -/
def code (s : State) (bs : List Byte) : State := { s with mem := storeBytes s.mem s.pc bs }

/-- What a step leaves, looked at through `f`. -/
def after {α : Type} (r : Result) (f : State → α) : Option α :=
  match r with
  | .next t => some (f t)
  | _ => none

/-- The outcome is a next state. -/
def completes (r : Result) : Bool := (after r fun _ => ()).isSome

theorem exists_next {r : Result} (h : completes r = true) : ∃ t, r = .next t := by
  cases r with
  | next t => exact ⟨t, rfl⟩
  | fault f => exact absurd h (by simp [completes, after])
  | refused q => exact absurd h (by simp [completes, after])

/-- The fault of an outcome. -/
def faultOf (r : Result) : Option Fault :=
  match r with
  | .fault f => some f
  | _ => none

theorem eq_fault {r : Result} {f : Fault} (h : faultOf r = some f) : r = .fault f := by
  cases r with
  | fault g => exact congrArg _ (Option.some.inj h)
  | next t => exact absurd h (by simp [faultOf])
  | refused q => exact absurd h (by simp [faultOf])

/-- The refusal of an outcome. -/
def refusalOf (r : Result) : Option Refusal :=
  match r with
  | .refused q => some q
  | _ => none

theorem eq_refused {r : Result} {q : Refusal} (h : refusalOf r = some q) : r = .refused q := by
  cases r with
  | refused p => exact congrArg _ (Option.some.inj h)
  | next t => exact absurd h (by simp [refusalOf])
  | fault f => exact absurd h (by simp [refusalOf])

/-- M1: nothing enabled; bits 511:128 are cleared all the same. -/
theorem test_xmm_reg : after (step (code (k1 (src #v[0x4004000000000000, 0xC004000000000000, 0, 0, 0, 0, 0, 0]) 0)
    [0x62, 0xF3, 0xFD, 0x09, 0x09, 0xCA, 0x00])) (fun t => (t.readZmm 1, t.mxcsr, t.pc)) =
    some (#v[0x6666666666666666, 0x6666666666666666, 0, 0, 0, 0, 0, 0], 0x1F80, 0xFFF7) := by decide

/-- M3: mask bits from KL up are ignored. -/
theorem test_xmm_reg_mask : after (step (code (k1 (src #v[0x4004000000000000, 0xC004000000000000, 0, 0, 0, 0, 0, 0]) 0xFD)
    [0x62, 0xF3, 0xFD, 0x09, 0x09, 0xCA, 0x00])) (fun t => (t.readZmm 1, t.mxcsr)) =
    some (#v[0x4000000000000000, 0x6666666666666666, 0, 0, 0, 0, 0, 0], 0x1FA0) := by decide

/-- By hand: [2.5, -2.5] in memory, rounded down. -/
theorem test_xmm_mem : after (step (code (qwords st 0x4004000000000000 0xC004000000000000)
    [0x62, 0xF3, 0xFD, 0x08, 0x09, 0x08, 0x01])) (fun t => (t.readZmm 1, t.mxcsr)) =
    some (#v[0x4000000000000000, 0xC008000000000000, 0, 0, 0, 0, 0, 0], 0x1FA0) := by decide

/-- By hand: the qword at 1008h (disp8 = 1 times 8) to both elements. -/
theorem test_xmm_bcst : after (step (code (qwords st 0 0xC004000000000000)
    [0x62, 0xF3, 0xFD, 0x18, 0x09, 0x48, 0x01, 0x03])) (fun t => (t.readZmm 1, t.pc)) =
    some (#v[0xC000000000000000, 0xC000000000000000, 0, 0, 0, 0, 0, 0], 0xFFF8) := by decide

/-- M5: no mask, `k0 = 0` is not consulted; round up. -/
theorem test_ymm_reg : after (step (code (src #v[0x4004000000000000, 0xC004000000000000, 0x3FE0000000000000,
    0x4000000000000000, 0, 0, 0, 0]) [0x62, 0xF3, 0xFD, 0x28, 0x09, 0xCA, 0x02])) (fun t => (t.readZmm 1, t.mxcsr)) =
    some (#v[0x4008000000000000, 0xC000000000000000, 0x3FF0000000000000, 0x4000000000000000, 0, 0, 0, 0], 0x1FA0) := by
  decide

/-- By hand: 32 bytes at 1000h, the upper 16 of them unlisted and so zero; SPE set, so no flag. -/
theorem test_ymm_mem : after (step (code (qwords st 0x4004000000000000 0xC004000000000000)
    [0x62, 0xF3, 0xFD, 0x28, 0x09, 0x08, 0x0A])) (fun t => (t.readZmm 1, t.mxcsr)) =
    some (#v[0x4008000000000000, 0xC000000000000000, 0, 0, 0, 0, 0, 0], 0x1F80) := by decide

/-- By hand: zeroing with k1 = 0101b. -/
theorem test_ymm_bcst : after (step (code (k1 (qwords st 0x4004000000000000 0) 5)
    [0x62, 0xF3, 0xFD, 0xB9, 0x09, 0x08, 0x00])) (fun t => t.readZmm 1) =
    some #v[0x4000000000000000, 0, 0x4000000000000000, 0, 0, 0, 0, 0] := by decide

/-- M7: in place, no mask, M = 1, truncate. -/
theorem test_zmm_reg : after (step (code (src #v[0x4006000000000000, 0xC006000000000000, 0x3FD0000000000000, 0x7E37E43C8800759C,
    0x8000000000000000, 0x7FF0000000000000, 0x4004000000000000, 0x3FF0000000000000])
    [0x62, 0xF3, 0xFD, 0x48, 0x09, 0xD2, 0x13])) (fun t => t.readZmm 2) =
    some #v[0x4004000000000000, 0xC004000000000000, 0, 0x7E37E43C8800759C, 0x8000000000000000, 0x7FF0000000000000,
      0x4004000000000000, 0x3FF0000000000000] := by decide

/-- X10: a signalling NaN in a disabled element raises nothing, though MXCSR.IM = 0. -/
theorem test_zmm_reg_disabled_nan : after (step (code (k1 (mx (src #v[0x7FF0000000000001, 0x3FF0000000000000, 0, 0, 0, 0, 0, 0])
    0x1F00) 0xFE) [0x62, 0xF3, 0xFD, 0x49, 0x09, 0xCA, 0x00])) (fun t => (lane (t.readZmm 1) 0, t.mxcsr)) =
    some (0x6666666666666666, 0x1F00) := by decide

/-- By hand: [2.5, -2.5, 0, ...] at [rax + 64 * 0], truncated. -/
theorem test_zmm_mem : after (step (code (qwords st 0x4004000000000000 0xC004000000000000)
    [0x62, 0xF3, 0xFD, 0x48, 0x09, 0x48, 0x00, 0x03])) (fun t => (t.readZmm 1, t.pc)) =
    some (#v[0x4000000000000000, 0xC000000000000000, 0, 0, 0, 0, 0, 0], 0xFFF8) := by decide

/-- By hand: a quiet NaN to all eight elements. -/
theorem test_zmm_bcst : after (step (code (qwords st 0x7FF8000000000005 0) [0x62, 0xF3, 0xFD, 0x58, 0x09, 0x08, 0x00]))
    (fun t => (t.readZmm 1, t.mxcsr)) = some (Vector.replicate 8 0x7FF8000000000005, 0x1F80) := by decide

/-- X11: `{sae}` with both conditions unmasked: no exception, no flag, values written. -/
theorem test_zmm_sae : after (step (code (mx (src #v[0x7FF0000000000001, 0x4004000000000000, 0, 0, 0, 0, 0, 0]) 0x0F00)
    [0x62, 0xF3, 0xFD, 0x58, 0x09, 0xCA, 0x00])) (fun t => (t.readZmm 1, t.mxcsr)) =
    some (#v[0x7FF8000000000001, 0x4000000000000000, 0, 0, 0, 0, 0, 0], 0x0F00) := by decide

/-- The host's question, on row 10: the word runs as the first instruction after reset. -/
theorem test_with_fetch_word : completes (step (State.reset.withFetchWord 48 0xC00958FD0362)) = true ∧
    completes (step (State.reset.withFetchWord 48 0x6203FD580900)) = true := by decide

/-- X6 and X7: unmasked precision is #XM, or #UD when CR4.OSXMMEXCPT = 0, and PE becomes 1. -/
theorem test_unmasked_precision :
    faultOf (exec (.vrndscalepdZmmReg 1 2 ⟨0, false⟩ 0) (mx (src #v[0x4004000000000000, 0, 0, 0, 0, 0, 0, 0]) 0x0F80)) =
      some (.simdException (mx (src #v[0x4004000000000000, 0, 0, 0, 0, 0, 0, 0]) 0x0FA0)) ∧
    faultOf (exec (.vrndscalepdZmmReg 1 2 ⟨0, false⟩ 0)
        { mx (src #v[0x4004000000000000, 0, 0, 0, 0, 0, 0, 0]) 0x0F80 with cr4Osxmmexcpt := false }) =
      some (.invalidOpcode { mx (src #v[0x4004000000000000, 0, 0, 0, 0, 0, 0, 0]) 0x0FA0 with cr4Osxmmexcpt := false }) := by
  decide

/-! ### Witnesses: data that meet the hypotheses of each statement -/

/-- An encoding of every shape of operand. -/
theorem witness_wf : (Instr.vrndscalepdZmmMem 31 (.sib 13 12 3 (.disp32 0xFFFFFFFF)) ⟨7, true⟩ 0xFF).wf = true ∧
    (Instr.vrndscalepdXmmBcst 0 (.base 13 (.disp8 0x80)) ⟨1, false⟩ 0).wf = true ∧
    (Instr.vrndscalepdYmmMem 0 (.base 3 .absent) ⟨0, false⟩ 0).wf = true ∧
    (Instr.vrndscalepdYmmBcst 0 (.sibNoBase 4 0 0) ⟨0, false⟩ 0).wf = true ∧
    (Instr.vrndscalepdZmmBcst 0 (.rip 0) ⟨0, false⟩ 0).wf = true ∧
    (Instr.vrndscalepdZmmSae 31 31 ⟨7, true⟩ 0xFF).wf = true := by decide

/-- DecodedFormsAreWellFormed, DecoderReadsExactlyTheInstruction, DecodedBytesAreTheEncoding, BytesBeforeTheEvexPrefix (third clause): the shortest and the longest
instruction, each with a byte after it. -/
theorem witness_decoded : decode false [0x62, 0xF3, 0xFD, 0x08, 0x09, 0x08, 0x00, 0x90] =
      .form (.vrndscalepdXmmMem 1 (.base 0 .absent) ⟨0, false⟩ 0) 7 ∧
    decode true [0x62, 0xF3, 0xFD, 0x48, 0x09, 0x84, 0xCE, 0, 0x10, 0, 0, 0x09, 0x90] =
      .form (.vrndscalepdZmmMem 0 (.sib 6 1 3 (.disp32 0x1000)) ⟨0, false⟩ 0x09) 12 := by decide

/-- ReservedVvvvOrVPrimeRaisesInvalidOpcode, both grounds, the second with the five bytes at the very top of the address space. -/
theorem witness_vvvv : (code st [0x62, 0xF3, 0xF5, 0x48, 0x09]).mode = .bits64 ∧
    CodeAt 0xFFF0 [0x62, 0xF3, 0xF5, 0x48, 0x09] (code st [0x62, 0xF3, 0xF5, 0x48, 0x09]) ∧
    (0xF3 : Byte).extractLsb' 0 4 = 3 ∧ (0xF5 : Byte).getLsbD 7 = true ∧ (0xF5 : Byte).extractLsb' 0 2 = 1 ∧
    (0xF5 : Byte).extractLsb' 3 4 ≠ 15 := by decide

/-- See `witness_vvvv`. -/
theorem witness_vprime :
    CodeAt 0xFFFFFFFFFFFFFFFB [0x62, 0xF3, 0xFD, 0x40, 0x09] (code { st with pc := 0xFFFFFFFFFFFFFFFB } [0x62, 0xF3, 0xFD, 0x40, 0x09]) ∧
    (0xFFFFFFFFFFFFFFFB : Addr).toNat + 5 ≤ 2 ^ 64 ∧ (0xFD : Byte).getLsbD 7 = true ∧ (0xFD : Byte).extractLsb' 0 2 = 1 ∧
    (0x40 : Byte).getLsbD 3 = false := by decide

/-- DecodedBytesAreTheEncoding, at bits that are ignored and bits that are not: RIP-relative bytes with P0[6:5] stored as 00b (R38),
and `{sae}` with L'L = 00b when the switch is on (R63). -/
theorem witness_ignored_bits :
    decode false [0x62, 0x93, 0xFD, 0x58, 0x09, 0x3D, 0xC0, 0xFF, 0xFF, 0xFF, 0x03] =
      .form (.vrndscalepdZmmBcst 7 (.rip 0xFFFFFFC0) ⟨0, false⟩ 0x03) 11 ∧
    ignoredBit false (.vrndscalepdZmmBcst 7 (.rip 0xFFFFFFC0) ⟨0, false⟩ 0x03) 1 5 = true ∧
    ignoredBit false (.vrndscalepdZmmBcst 7 (.rip 0xFFFFFFC0) ⟨0, false⟩ 0x03) 1 7 = false ∧
    decode true [0x62, 0xF3, 0xFD, 0x18, 0x09, 0xCA, 0x03] = .form (.vrndscalepdZmmSae 1 2 ⟨0, false⟩ 0x03) 7 ∧
    ignoredBit true (.vrndscalepdZmmSae 1 2 ⟨0, false⟩ 0x03) 3 6 = true ∧
    ignoredBit false (.vrndscalepdZmmSae 1 2 ⟨0, false⟩ 0x03) 3 6 = false := by decide

/-- OtherBytesAreNotThisInstruction: the bytes beside 40h..4Fh and 62h, a prefix before another byte, and each field. -/
theorem witness_other_bytes : (0x3F : Byte) ≠ 0x62 ∧ ¬ (0x40 ≤ (0x3F : Byte).toNat ∧ (0x3F : Byte).toNat ≤ 0x4F) ∧
    ¬ (0x40 ≤ (0x50 : Byte).toNat ∧ (0x50 : Byte).toNat ≤ 0x4F) ∧
    (0x50 : Byte) ∉ ([0x26, 0x2E, 0x36, 0x3E, 0x64, 0x65, 0x67, 0x66, 0xF2, 0xF3, 0xF0] : List Byte) ∧ (0x0F : Byte) ≠ 0x62 ∧
    (0xF2 : Byte).extractLsb' 0 2 ≠ 3 ∧ (0xF7 : Byte).extractLsb' 2 2 ≠ 0 ∧ (0x7D : Byte).getLsbD 7 = false ∧
    (0xFE : Byte).extractLsb' 0 2 ≠ 1 ∧ (0x08 : Byte) ≠ 0x09 := by decide

/-- ReservedFieldsAreNotDecoded, its five clauses: P0, P1, P2 and ModRM for each; the last two with z = 0 and with z = 1. -/
theorem witness_reserved_fields :
    ((0xF7 : Byte).extractLsb' 0 2 = 3 ∧ (0xF7 : Byte).extractLsb' 2 2 ≠ 0) ∧
    ((0xF3 : Byte).extractLsb' 2 2 = 0 ∧ (0xF9 : Byte).getLsbD 7 = true ∧ (0xF9 : Byte).extractLsb' 0 2 = 1 ∧
      (0xF9 : Byte).getLsbD 2 = false) ∧
    ((0xC8 : Byte).getLsbD 3 = true ∧ (0xC8 : Byte).getLsbD 7 = true ∧ (0xC8 : Byte).extractLsb' 0 3 = 0) ∧
    ((0x78 : Byte).getLsbD 3 = true ∧ (0x78 : Byte).getLsbD 7 = false ∧ (0x78 : Byte).getLsbD 4 = true ∧
      (0x78 : Byte).extractLsb' 5 2 ≠ 2 ∧ (0xCA : Byte).extractLsb' 6 2 = 3) ∧
    ((0xB9 : Byte).getLsbD 3 = true ∧ (0xB9 : Byte).getLsbD 7 = true ∧ (0xB9 : Byte).extractLsb' 0 3 ≠ 0 ∧
      (0xB9 : Byte).getLsbD 4 = true ∧ (0xB9 : Byte).extractLsb' 5 2 ≠ 2) ∧
    ((0x68 : Byte).getLsbD 3 = true ∧ (0x68 : Byte).getLsbD 7 = false ∧ (0x68 : Byte).extractLsb' 5 2 = 3 ∧
      (0x68 : Byte).getLsbD 4 = false) ∧
    ((0xF9 : Byte).getLsbD 3 = true ∧ (0xF9 : Byte).getLsbD 7 = true ∧ (0xF9 : Byte).extractLsb' 0 3 ≠ 0 ∧
      (0xF9 : Byte).extractLsb' 5 2 = 3 ∧ (0x0A : Byte).extractLsb' 6 2 ≠ 3) := by decide

/-- SaeSwitchIgnoresTheLengthField. -/
theorem witness_mask : (⟨1, true⟩ : Mask).wf = true ∧ (⟨0, false⟩ : Mask).wf = true := by decide

/-- BytesBeforeTheEvexPrefix: the first clause at 40h and 4Fh, the second at 67h. -/
theorem witness_prefixes : CodeAt 0xFFF0 [0x40, 0x62] (code st [0x40, 0x62]) ∧ CodeAt 0xFFF0 [0x4F, 0x62] (code st [0x4F, 0x62]) ∧
    CodeAt 0xFFF0 [0x67] (code st [0x67]) ∧ (code st [0x67]).mode = .bits64 := by decide

/-- StepRunsTheDecodedInstruction: an instruction ending at the top of the address space, and below each other answer. -/
theorem witness_step_runs :
    CodeAt 0xFFFFFFFFFFFFFFF9 [0x62, 0xF3, 0xFD, 0x48, 0x09, 0xCA, 0x03]
      (code { st with pc := 0xFFFFFFFFFFFFFFF9 } [0x62, 0xF3, 0xFD, 0x48, 0x09, 0xCA, 0x03]) ∧
    (0xFFFFFFFFFFFFFFF9 : Addr).toNat + 7 ≤ 2 ^ 64 ∧
    decode false [0x62, 0xF3, 0xFD, 0x48, 0x09, 0xCA, 0x03] = .form (.vrndscalepdZmmReg 1 2 ⟨0, false⟩ 0x03) 7 := by decide

/-- StepRunsTheDecodedInstruction, the other four answers, each at the bytes of its word. -/
theorem witness_step_answers :
    CodeAt 0xFFF0 [0x62, 0xF3, 0xFD, 0xC8, 0x09] (code st [0x62, 0xF3, 0xFD, 0xC8, 0x09]) ∧
    decode st.saeAnyLL [0x62, 0xF3, 0xFD, 0xC8, 0x09] = .ud ∧
    CodeAt 0xFFF0 [0x67] (code st [0x67]) ∧ decode st.saeAnyLL [0x67] = .refusedLegacyPrefix ∧
    CodeAt 0xFFF0 [0x62, 0xF3, 0xFD, 0x18, 0x09, 0xCA] (code st [0x62, 0xF3, 0xFD, 0x18, 0x09, 0xCA]) ∧
    decode st.saeAnyLL [0x62, 0xF3, 0xFD, 0x18, 0x09, 0xCA] = .refusedSaeLength ∧
    CodeAt 0xFFF0 [0x90] (code st [0x90]) ∧ decode st.saeAnyLL [0x90] = .notThisInstruction := by decide

/-- A machine on which the fetch of the byte at FFF2h gets this answer. -/
def stopAt (v : Verdict) : State := { code st [0x62, 0xF3] with xlat := [⟨.fetch, 0xFFF2, 0xFFF2, 1, 1, v⟩] }

/-- 92_eei_decisions.md D29: code that crosses the canonical boundary is refused; a `pc` that is not canonical is #GP(0). -/
theorem test_fetch_not_canonical : step (stopAt .nonCanonical) = .refused .pcLeavesRange ∧
    step { stopAt .nonCanonical with pc := 0xFFF2 } = .fault (.generalProtection { stopAt .nonCanonical with pc := 0xFFF2 }) :=
  ⟨eq_refused (by decide), eq_fault (by decide)⟩

/-- FetchFaultsAreRaised, the clause of the top of the address space. -/
theorem witness_fetch_wraps : CodeAt 0xFFFFFFFFFFFFFFFE [0x62, 0xF3] (code { st with pc := 0xFFFFFFFFFFFFFFFE } [0x62, 0xF3]) ∧
    decode st.saeAnyLL [0x62, 0xF3] = .short ∧ (0xFFFFFFFFFFFFFFFE : Addr).toNat + 2 = 2 ^ 64 := by decide

/-- FetchFaultsAreRaised, its first three clauses, and the first with no byte before it. -/
theorem witness_fetch_faults : CodeAt 0xFFF0 [0x62, 0xF3] (stopAt .nonCanonical) ∧
    CodeAt 0xFFF0 [0x62, 0xF3] (stopAt (.pageFault 4 0xFFF2)) ∧ CodeAt 0xFFF0 [0x62, 0xF3] (stopAt .sideEffects) ∧
    decode false [0x62, 0xF3] = .short ∧ decode false [] = .short ∧ CodeAt 0xFFF2 [] (stopAt .nonCanonical) ∧
    translateAccess (stopAt .nonCanonical).xlat 0xFFF2 1 .fetch = .nonCanonical ∧
    translateAccess (stopAt (.pageFault 4 0xFFF2)).xlat 0xFFF2 1 .fetch = .pageFault 4 0xFFF2 ∧
    translateAccess (stopAt .sideEffects).xlat 0xFFF2 1 .fetch = .sideEffects := by decide

/-- OtherModesAreNotAdmitted: each mode. -/
theorem witness_modes : State.reset.mode = .realAddress ∧ ({ st with mode := .virtual8086 } : State).mode ≠ .bits64 ∧
    ({ st with mode := .protected32 } : State).mode = .protected32 ∧
    ({ st with mode := .compatibility } : State).mode = .compatibility := by decide

/-- FiniteElementsAreRoundedExactly: a denormal with DAZ off, and the greatest finite element. -/
theorem witness_finite : isFinite (afterDaz 1 0x1F80) = true ∧ isZero (afterDaz 1 0x1F80) = false ∧
    isFinite (afterDaz 0xFFEFFFFFFFFFFFFF 0x1FC0) = true ∧ isZero (afterDaz 0xFFEFFFFFFFFFFFFF 0x1FC0) = false := by decide

/-- SpecialElementsComeBack: one element for each case. -/
theorem witness_specials : isInfinity 0xFFF0000000000000 = true ∧ isZero 0x8000000000000000 = true ∧
    isQNaN 0x7FF8000000000000 = true ∧ isDenormal 0x800FFFFFFFFFFFFF = true ∧ (0x1FC0 : BitVec 32).getLsbD 6 = true ∧
    isSNaN 0x7FF7FFFFFFFFFFFF = true ∧ isSNaN 0x7FF0000000000001 = true := by decide

/-- ResultsNeedNoSecondRounding: `2^52` with M = 0, the bound itself. -/
theorem witness_large : isFinite 0x4330000000000000 = true ∧
    (2 : ℚ) ^ 52 ≤ |valQ 0x4330000000000000| * 2 ^ ((0x00 : BitVec 8).extractLsb' 4 4).toNat := by
  refine ⟨by decide, ?_⟩
  have h1 : mantissa 0x4330000000000000 = 2 ^ 52 := by decide
  have h2 : ulpExp 0x4330000000000000 = 1075 := by decide
  have h3 : signOf 0x4330000000000000 = false := by decide
  have h4 : ((0x00 : BitVec 8).extractLsb' 4 4).toNat = 0 := by decide
  rw [valQ, h1, h2, h3, h4]
  norm_num

/-- DirectionHasOneSource, its three clauses: (imm8, imm8') = (4, 7), (2, 2), (4, 2) with MXCSR.RC = 10b. -/
theorem witness_direction : (0x04 : BitVec 8).extractLsb' 3 5 = (0x07 : BitVec 8).extractLsb' 3 5 ∧
    (0x04 : BitVec 8).getLsbD 2 = true ∧ (0x07 : BitVec 8).getLsbD 2 = true ∧ (0x02 : BitVec 8).getLsbD 2 = false ∧
    (0x04 : BitVec 8).extractLsb' 3 5 = (0x02 : BitVec 8).extractLsb' 3 5 ∧
    (0x5F80 : BitVec 32).getLsbD 6 = (0x1F80 : BitVec 32).getLsbD 6 ∧
    (0x5F80 : BitVec 32).extractLsb' 13 2 = (0x02 : BitVec 8).extractLsb' 0 2 := by decide

/-- RegisterFormsComplete: IM = 0 with a signalling NaN only where k1 disables it, PM = 1 with an inexact element. -/
theorem witness_register_forms :
    Ready .v256 (k1 (mx (src #v[0x7FF0000000000001, 0x4004000000000000, 0, 0, 0, 0, 0, 0]) 0x1F00) 0xFE) ∧
    NextPcInRange 7 (k1 (mx (src #v[0x7FF0000000000001, 0x4004000000000000, 0, 0, 0, 0, 0, 0]) 0x1F00) 0xFE) ∧
    NoneUnmasked (k1 (mx (src #v[0x7FF0000000000001, 0x4004000000000000, 0, 0, 0, 0, 0, 0]) 0x1F00) 0xFE) .v256 ⟨1, false⟩ 0
      (lane #v[0x7FF0000000000001, 0x4004000000000000, 0, 0, 0, 0, 0, 0]) := by decide

/-- FullMemoryFormsComplete, with the last `pc + len` that does not wrap. -/
theorem witness_full_memory_forms :
    Ready .v512 { qwords st 0x4004000000000000 1 with pc := 0xFFFFFFFFFFFFFFF8 } ∧
    NextPcInRange (memLength (.base 0 .absent)) { qwords st 0x4004000000000000 1 with pc := 0xFFFFFFFFFFFFFFF8 } ∧
    Readable (fullAddr .v512 (.base 0 .absent) (qwords st 0x4004000000000000 1)) 64 (qwords st 0x4004000000000000 1) ∧
    NoneUnmasked (qwords st 0x4004000000000000 1) .v512 ⟨0, false⟩ 0
      (fullElement (qwords st 0x4004000000000000 1) (fullAddr .v512 (.base 0 .absent) (qwords st 0x4004000000000000 1))) := by decide

/-- BroadcastFormsComplete, with both conditions unmasked and an exact element. -/
theorem witness_broadcast_forms :
    Ready .v128 (mx (qwords st 0x4000000000000000 0) 0x0F00) ∧
    NextPcInRange (memLength (.base 0 .absent)) (mx (qwords st 0x4000000000000000 0) 0x0F00) ∧
    Readable (bcstAddr (.base 0 .absent) (mx (qwords st 0x4000000000000000 0) 0x0F00)) 8
      (mx (qwords st 0x4000000000000000 0) 0x0F00) ∧
    NoneUnmasked (mx (qwords st 0x4000000000000000 0) 0x0F00) .v128 ⟨0, false⟩ 0
      (fun _ => readQword (mx (qwords st 0x4000000000000000 0) 0x0F00)
        (bcstAddr (.base 0 .absent) (mx (qwords st 0x4000000000000000 0) 0x0F00))) := by decide

/-- SaeFormCompletes, at a state whose source has both conditions, unmasked. -/
theorem witness_sae_form : Ready .v512 (mx (src #v[0x7FF0000000000001, 0x4004000000000000, 0, 0, 0, 0, 0, 0]) 0x0F00) ∧
    NextPcInRange 7 (mx (src #v[0x7FF0000000000001, 0x4004000000000000, 0, 0, 0, 0, 0, 0]) 0x0F00) := by decide

/-- DestinationIsWrittenUnderTheMask, CompletedInstructionIsFramed: each kind of form completes. -/
theorem witness_completed :
    (∃ t, exec (.vrndscalepdXmmReg 1 2 ⟨1, false⟩ 0) (k1 (src (Vector.replicate 8 0x4004000000000000)) 1) = .next t) ∧
    (∃ t, exec (.vrndscalepdYmmMem 1 (.base 0 .absent) ⟨0, false⟩ 0) (qwords st 0x4004000000000000 1) = .next t) ∧
    (∃ t, exec (.vrndscalepdZmmBcst 1 (.base 0 .absent) ⟨1, true⟩ 0) (k1 (qwords st 0x4004000000000000 1) 0xA5) = .next t) ∧
    (∃ t, exec (.vrndscalepdZmmSae 1 2 ⟨0, false⟩ 0) (src (Vector.replicate 8 0x7FF0000000000001)) = .next t) :=
  ⟨exists_next (by decide), exists_next (by decide), exists_next (by decide), exists_next (by decide)⟩

/-- DestinationIsWrittenUnderTheMask, the last clause with #XM, and below it with #UD; FaultsLeaveTheStateAsItWas, with a state that is not as it was. -/
theorem witness_simd_fault :
    (∃ left, exec (.vrndscalepdZmmReg 1 2 ⟨0, false⟩ 0) (mx (src #v[0x4004000000000000, 0, 0, 0, 0, 0, 0, 0]) 0x0F80) =
      .fault (.simdException left)) ∧
    step (code (mx (src #v[0x4004000000000000, 0, 0, 0, 0, 0, 0, 0]) 0x0F80) [0x62, 0xF3, 0xFD, 0x48, 0x09, 0xCA, 0x00]) =
      .fault (.simdException
        (code (mx (src #v[0x4004000000000000, 0, 0, 0, 0, 0, 0, 0]) 0x0FA0) [0x62, 0xF3, 0xFD, 0x48, 0x09, 0xCA, 0x00])) :=
  ⟨⟨_, eq_fault test_unmasked_precision.1⟩, eq_fault (by decide)⟩

/-- DestinationIsWrittenUnderTheMask, the last clause where CR4.OSXMMEXCPT = 0. -/
theorem witness_simd_ud :
    Ready .v512 { mx (src #v[0x4004000000000000, 0, 0, 0, 0, 0, 0, 0]) 0x0F80 with cr4Osxmmexcpt := false } ∧
    ∃ left, exec (.vrndscalepdZmmReg 1 2 ⟨0, false⟩ 0)
      { mx (src #v[0x4004000000000000, 0, 0, 0, 0, 0, 0, 0]) 0x0F80 with cr4Osxmmexcpt := false } =
      .fault (.invalidOpcode left) :=
  ⟨by decide, _, eq_fault test_unmasked_precision.2⟩

/-- UnmaskedConditionsRaiseTheSimdException, its three clauses, and both conditions at once in the first. -/
theorem witness_unmasked :
    ¬ NoneUnmasked (mx (src #v[0x7FF0000000000001, 0x4004000000000000, 0, 0, 0, 0, 0, 0]) 0x0F00) .v128 ⟨0, false⟩ 0
      (lane #v[0x7FF0000000000001, 0x4004000000000000, 0, 0, 0, 0, 0, 0]) ∧
    (Readable (fullAddr .v128 (.base 0 .absent) (mx (qwords st 0 0x4004000000000000) 0x0F80)) 16
        (mx (qwords st 0 0x4004000000000000) 0x0F80) ∧
      ¬ NoneUnmasked (mx (qwords st 0 0x4004000000000000) 0x0F80) .v128 ⟨0, false⟩ 0
        (fullElement (mx (qwords st 0 0x4004000000000000) 0x0F80) 0x1000)) ∧
    (Readable (bcstAddr (.base 0 .absent) (mx (qwords st 0x7FF0000000000001 0) 0x1F00)) 8
        (mx (qwords st 0x7FF0000000000001 0) 0x1F00) ∧
      ¬ NoneUnmasked (mx (qwords st 0x7FF0000000000001 0) 0x1F00) .v512 ⟨0, false⟩ 0
        (fun _ => readQword (mx (qwords st 0x7FF0000000000001 0) 0x1F00) 0x1000)) ∧
    Ready .v128 (mx (qwords st 0 0x4004000000000000) 0x0F80) := by decide

/-- MissingFeatureOrEnableRaisesInvalidOpcode: each of its eight grounds. -/
theorem witness_not_enabled : st.mode = .bits64 ∧ ({ st with cr4Osxsave := false } : State).cr4Osxsave = false ∧
    (0xE5 : BitVec 64).getLsbD 1 = false ∧ (0xE3 : BitVec 64).getLsbD 2 = false ∧ (0xC7 : BitVec 64).getLsbD 5 = false ∧
    (0xA7 : BitVec 64).getLsbD 6 = false ∧ (0x67 : BitVec 64).getLsbD 7 = false ∧
    vlenOf (.vrndscalepdZmmReg 1 2 ⟨0, false⟩ 0) = .v512 ∧
    ({ st with cpuid := ⟨false, true, false⟩ } : State).cpuid.avx512f = false ∧
    vlenOf (.vrndscalepdXmmReg 1 2 ⟨0, false⟩ 0) ≠ .v512 ∧
    ({ st with cpuid := ⟨true, false, false⟩ } : State).cpuid.avx512vl = false := by decide

/-- TaskSwitchedRaisesDeviceNotAvailable. -/
theorem witness_task_switched : ({ st with cr0Ts := true } : State).mode = .bits64 ∧
    ({ st with cr0Ts := true } : State).osEnabled = true ∧
    ({ st with cr0Ts := true } : State).featureOk (vlenOf (.vrndscalepdXmmReg 1 2 ⟨0, false⟩ 0)) = true := by decide

/-- A machine on which every data read gets this answer. -/
def noRead (v : Verdict) : State := { st with xlat := [⟨.dataRead, 0, 2 ^ 64 - 1, 0, 64, v⟩] }

/-- OperandFaultsAreRaised, its clauses: base RSP by a SIB byte and base RBP, another base, #PF, reads with side effects; full-width
and broadcast. -/
theorem witness_operand_faults : Ready .v512 (noRead .nonCanonical) ∧
    translateAccess (noRead .nonCanonical).xlat (fullAddr .v512 (.sib 4 4 0 .absent) (noRead .nonCanonical)) 64 .dataRead = .nonCanonical ∧
    translateAccess (noRead .nonCanonical).xlat (bcstAddr (.base 5 (.disp8 0)) (noRead .nonCanonical)) 8 .dataRead = .nonCanonical ∧
    translateAccess (noRead .nonCanonical).xlat (bcstAddr (.base 13 (.disp8 0)) (noRead .nonCanonical)) 8 .dataRead = .nonCanonical ∧
    Ready .v128 (noRead (.pageFault 4 7)) ∧
    translateAccess (noRead (.pageFault 4 7)).xlat (fullAddr .v128 (.rip 0) (noRead (.pageFault 4 7))) 16 .dataRead = .pageFault 4 7 ∧
    translateAccess (noRead (.pageFault 4 7)).xlat (bcstAddr (.rip 0) (noRead (.pageFault 4 7))) 8 .dataRead = .pageFault 4 7 ∧
    Ready .v256 (noRead .sideEffects) ∧
    translateAccess (noRead .sideEffects).xlat (fullAddr .v256 (.rip 0) (noRead .sideEffects)) 32 .dataRead = .sideEffects ∧
    translateAccess (noRead .sideEffects).xlat (bcstAddr (.rip 0) (noRead .sideEffects)) 8 .dataRead = .sideEffects := by decide

/-- NextPcOutOfRangeIsRefused: the first `pc + 7` that wraps, and a `pc + 7` that is not canonical. -/
theorem witness_next_pc : Ready .v512 { st with pc := 0xFFFFFFFFFFFFFFF9 } ∧ ¬ NextPcInRange 7 { st with pc := 0xFFFFFFFFFFFFFFF9 } ∧
    NextPcInRange 7 { st with pc := 0xFFFFFFFFFFFFFFF8 } ∧
    ¬ NextPcInRange 7 { st with xlat := [⟨.fetch, 0xFFF7, 0xFFF7, 1, 1, .nonCanonical⟩] } ∧
    ¬ NextPcInRange (memLength (.base 0 .absent)) { qwords st 0 0 with pc := 0xFFFFFFFFFFFFFFF9 } ∧
    Readable (fullAddr .v256 (.base 0 .absent) (qwords st 0 0)) 32 (qwords st 0 0) ∧
    Readable (bcstAddr (.base 0 .absent) (qwords st 0 0)) 8 (qwords st 0 0) ∧
    NoneUnmasked (qwords st 0 0) .v256 ⟨0, false⟩ 0 (fullElement (qwords st 0 0) 0x1000) ∧
    NoneUnmasked (qwords st 0 0) .v256 ⟨0, false⟩ 0 (fun _ => readQword (qwords st 0 0) 0x1000) ∧
    NoneUnmasked { st with pc := 0xFFFFFFFFFFFFFFF9 } .v512 ⟨0, false⟩ 0 (lane (st.readZmm 2)) := by decide

/-- UnreadMxcsrBitsDoNotMatter: with `imm8 = 8`, two MXCSR words that agree in DAZ and IM and differ in RC, PM and the flags. -/
theorem witness_unread_mxcsr : mxcsrDAZ 0xFFFFEFBF = mxcsrDAZ 0x1F80 ∧ (0x08 : BitVec 8).getLsbD 2 = false ∧
    mxcsrIM 0xFFFFEFBF = mxcsrIM 0x1F80 ∧ (0x08 : BitVec 8).getLsbD 3 = true ∧
    mxcsrPM 0xFFFFEFBF ≠ mxcsrPM 0x1F80 ∧ mxcsrRC 0xFFFFEFBF ≠ mxcsrRC 0x1F80 := by decide

/-- DisabledSourceElementsDoNotMatter: elements 1 to 7 of the source differ, k1 enables element 0. -/
theorem witness_disabled_source : (∀ j, On (k1 (src (Vector.replicate 8 0x4004000000000000)) 1) .v512 ⟨1, false⟩ j →
      lane #v[0x4004000000000000, 1, 2, 3, 4, 5, 6, 0x7FF0000000000001] j =
        lane ((k1 (src (Vector.replicate 8 0x4004000000000000)) 1).readZmm 2) j) ∧
    (∃ t, exec (.vrndscalepdZmmReg 1 2 ⟨1, false⟩ 0) (k1 (src (Vector.replicate 8 0x4004000000000000)) 1) = .next t) ∧
    (∃ t, exec (.vrndscalepdZmmSae 1 2 ⟨1, false⟩ 0) (k1 (src (Vector.replicate 8 0x4004000000000000)) 1) = .next t) :=
  ⟨by decide, exists_next (by decide), exists_next (by decide)⟩

/-- UnselectedOpmaskBitsDoNotMatter: opmasks that agree in bits 1:0 of k1 only. -/
theorem witness_unselected_opmask : (∀ j, j < kl .v128 → (0xFD : BitVec 64).getLsbD j = (0x01 : BitVec 64).getLsbD j) ∧
    ((k1 (src (Vector.replicate 8 0x4004000000000000)) 0xFD).readK 1).getLsbD 0 = true ∧
    (∃ t, exec (.vrndscalepdXmmReg 1 2 ⟨1, false⟩ 0) (k1 (src (Vector.replicate 8 0x4004000000000000)) 0xFD) = .next t) :=
  ⟨by decide, by decide, exists_next (by decide)⟩

/-- StepKeepsTheInvariant, StepChangesOneRegisterTwoFlagsAndPc. -/
theorem witness_step : Inv (code st [0x62, 0xF3, 0xFD, 0x48, 0x09, 0xCA, 0x03]) ∧
    ∃ t, step (code st [0x62, 0xF3, 0xFD, 0x48, 0x09, 0xCA, 0x03]) = .next t :=
  ⟨by decide, exists_next (by decide)⟩

/-- FaultsLeaveTheStateAsItWas: a fault of the fetch. -/
theorem witness_fault : step (stopAt (.pageFault 4 0xFFF2)) = .fault (.pageFault 4 0xFFF2 (stopAt (.pageFault 4 0xFFF2))) :=
  eq_fault (by decide)

/-- The program of `witness_program`. -/
def program : List Instr := [.vrndscalepdZmmReg 1 2 ⟨0, false⟩ 0x03, .vrndscalepdXmmMem 3 (.base 0 (.disp8 1)) ⟨1, true⟩ 0x12]

/-- LaidOutProgramRunsToItsEnd: two instructions, of 7 and 8 bytes; the empty program meets the hypotheses too. -/
theorem witness_program : (∀ i ∈ program, i.wf = true) ∧ CodeAt 0xFFF0 (programBytes program) (code st (programBytes program)) ∧
    programBytes program = [0x62, 0xF3, 0xFD, 0x48, 0x09, 0xCA, 0x03, 0x62, 0xF3, 0xFD, 0x89, 0x09, 0x58, 0x01, 0x12] ∧
    (∃ t, execAll program (code st (programBytes program)) = some t) ∧ execAll [] st = some st :=
  ⟨by decide, by decide, by decide, Option.isSome_iff_exists.mp (by decide), rfl⟩

/-- EffectiveAddresses: the broadcast address of a state, with its factor. -/
theorem witness_addresses : ∃ addr : MemOperand → Addr, (addr = fun m => bcstAddr m st) ∧ (8 : BitVec 64) = 8 := ⟨_, rfl, rfl⟩

/-- MemoryReadsAreLittleEndian, ElementsLieAtTheirAddresses, EveryTranslationHasATable, EffectiveAddresses (an index register R12). -/
theorem witness_bounds : 0 < 1 ∧ (7 : Fin 8).val < kl .v512 ∧ (1 : Fin 8).val < kl .v128 ∧ 64 ≤ 64 ∧ (12 : BitVec 4) ≠ 4 := by decide

end Sys2Proof.Machine.Tests
end

section
/-! PROOFS of the statements of 10_state.md: what reset leaves, what an instruction reads of the state, and what it leaves
unchanged. -/

namespace Sys2Proof.Machine

/-! ### Reset (R21) -/

@[simp] theorem lane_readZmm_reset (r : BitVec 5) (j : Fin 8) : lane (State.reset.readZmm r) j = 0 := by
  simp [State.readZmm, State.reset, lane]

@[simp] theorem readK_reset (r : BitVec 3) : State.reset.readK r = 0 := by
  simp [State.readK, State.reset]

@[simp] theorem readX_reset (r : BitVec 4) : State.reset.readX r = 0 := by
  simp [State.readX, State.reset]

/-- Settles O38: memory is empty, MXCSR is 1F80h, and the machine is not in 64-bit mode. -/
theorem resetMeetsTheInvariant : Obligations.ResetMeetsTheInvariant := by
  have hmxcsr : MxcsrReservedZero State.reset := by decide
  have hmode : State.reset.mode ≠ .bits64 := by decide
  exact ⟨reset_mem_wf, hmxcsr, fun h => absurd h hmode⟩

/-- Settles O42: the register files are zero throughout; the other values stand in `State.reset`. -/
theorem resetLeavesTheStatedValues : Obligations.ResetLeavesTheStatedValues :=
  ⟨lane_readZmm_reset, readK_reset, rfl, rfl, rfl, rfl, fun r _ => readX_reset r, rfl, rfl, rfl, rfl, by decide⟩

/-! ### The register as its eight elements (R14) -/

/-- Element `j` of a register is bits `64j+63 : 64j`: under the elements above it, it is the highest that is left. -/
theorem zmmBits_extractLsb' (v : Zmm) (j : Fin 8) : (zmmBits v).extractLsb' (64 * j.val) 64 = lane v j := by
  unfold zmmBits
  fin_cases j
  · simp (disch := decide) only [BitVec.extractLsb'_append_eq_of_add_le]
    exact BitVec.extractLsb'_eq_self
  all_goals
    simp (disch := decide) only [BitVec.extractLsb'_append_eq_of_add_le, BitVec.extractLsb'_append_eq_left]
    rfl

/-- Settles O49. -/
theorem elementsAreSlicesOfTheRegister : Obligations.ElementsAreSlicesOfTheRegister := zmmBits_extractLsb'

/-! ### The frame (R10, R13, R17) -/

@[simp] theorem finalState_mxcsr (s : State) (dst : BitVec 5) (new : Zmm) (ie pe : Bool) (n : Nat) :
    (finalState s dst new ie pe n).mxcsr = setFlags s.mxcsr ie pe := rfl

@[simp] theorem finalState_pc (s : State) (dst : BitVec 5) (new : Zmm) (ie pe : Bool) (n : Nat) :
    (finalState s dst new ie pe n).pc = s.pc + BitVec.ofNat 64 n := rfl

@[simp] theorem readZmm_finalState (s : State) (dst : BitVec 5) (new : Zmm) (ie pe : Bool) (n : Nat) (r : BitVec 5) :
    (finalState s dst new ie pe n).readZmm r = if r = dst then new else s.readZmm r :=
  readZmm_writeZmm s dst r new

theorem othersUnchanged_finalState (s : State) (dst : BitVec 5) (new : Zmm) (ie pe : Bool) (n : Nat) :
    OthersUnchanged s (finalState s dst new ie pe n) :=
  ⟨rfl, rfl, rfl, fun _ => rfl, rfl, rfl, rfl, rfl, rfl, rfl, rfl, rfl, rfl⟩

theorem framed_finalState (s : State) (dst : BitVec 5) (new : Zmm) (ie pe : Bool) (n : Nat) :
    Framed s (finalState s dst new ie pe n) dst :=
  ⟨fun r hr => by rw [readZmm_finalState, if_neg hr], rfl, othersUnchanged_finalState s dst new ie pe n⟩

/-- The state an instruction completes in, as far as frames need it: `{sae}` sets no flag. -/
theorem exec_next_finalState {i : Instr} {s t : State} (h : exec i s = .next t) :
    ∃ new ie pe, (isSae i = true → ie = false ∧ pe = false) ∧ NextPcInRange i.length s ∧
      t = finalState s (dstOf i) new ie pe i.length := by
  obtain ⟨_, _, hpc, ie, pe, hsae, _, ht⟩ := exec_next h
  exact ⟨_, ie, pe, hsae, (nextPcOk_iff s _).mp hpc, ht⟩

/-- Settles O40. -/
theorem completedInstructionIsFramed : Obligations.CompletedInstructionIsFramed := by
  intro i s t h
  obtain ⟨new, ie, pe, hsae, _, rfl⟩ := exec_next_finalState h
  refine ⟨framed_finalState s _ new ie pe _, finalState_pc .., fun hs => ?_, fun b h0 h5 => ?_⟩
  · obtain ⟨rfl, rfl⟩ := hsae hs
    simp
  · exact setFlags_other s.mxcsr ie pe h0 h5

theorem instrLength_bounds (i : Instr) : 7 ≤ i.length ∧ i.length ≤ 12 := by
  cases i with
  | vrndscalepdXmmReg | vrndscalepdYmmReg | vrndscalepdZmmReg | vrndscalepdZmmSae =>
    exact (by decide : 7 ≤ regLength ∧ regLength ≤ 12)
  | vrndscalepdXmmMem _ m | vrndscalepdYmmMem _ m | vrndscalepdZmmMem _ m => exact Laws.memLength_bounds m
  | vrndscalepdXmmBcst _ m | vrndscalepdYmmBcst _ m | vrndscalepdZmmBcst _ m => exact Laws.memLength_bounds m

/-- Settles O39: a step that answers a next state is one instruction, which only completes with `pc + len` in range. -/
theorem stepChangesOneRegisterTwoFlagsAndPc : Obligations.StepChangesOneRegisterTwoFlagsAndPc := by
  intro s t h
  obtain ⟨_, i, _, _, hexec⟩ := step_next h
  obtain ⟨new, ie, pe, _, ⟨hwrap, _⟩, rfl⟩ := exec_next_finalState hexec
  obtain ⟨hmin, hmax⟩ := instrLength_bounds i
  exact ⟨⟨dstOf i, framed_finalState s _ new ie pe _⟩, ⟨i.length, hmin, hmax, finalState_pc .., hwrap⟩,
    fun _ => setFlags_mono s.mxcsr ie pe, fun _ => setFlags_other s.mxcsr ie pe⟩

/-! ### The two conditions of an element -/

theorem isSNaN_zeroOf (sign : Bool) : isSNaN (zeroOf sign) = false := by
  cases sign <;> decide

theorem isSNaN_of_isDenormal {b : Word64} (h : isDenormal b = true) : isSNaN b = false := by
  have hexp : expOf b = 0 := by simp_all [isDenormal]
  simp [isSNaN, hexp]

/-- DAZ neither makes a signalling NaN nor removes one. -/
@[simp] theorem isSNaN_afterDaz (b : Word64) (mxcsr : BitVec 32) : isSNaN (afterDaz b mxcsr) = isSNaN b := by
  unfold afterDaz
  split
  · rename_i h
    rw [isSNaN_zeroOf, isSNaN_of_isDenormal (Bool.and_eq_true_iff.mp h).2]
  · rfl

theorem roundFinite_ie (x : Word64) (imm8 : BitVec 8) (mxcsr : BitVec 32) : (roundFinite x imm8 mxcsr).ie = false := by
  simp only [roundFinite]
  split <;> rfl

theorem roundFinite_pe_of_suppress {imm8 : BitVec 8} (h : suppressPrecision imm8 = true) (x : Word64) (mxcsr : BitVec 32) :
    (roundFinite x imm8 mxcsr).pe = false := by
  simp only [roundFinite, h]
  split <;> rfl

/-- The invalid condition is exactly a signalling NaN (40_vrndscalepd.md R90). -/
theorem roundElement_ie (b : Word64) (imm8 : BitVec 8) (mxcsr : BitVec 32) : (roundElement b imm8 mxcsr).ie = isSNaN b := by
  rw [← isSNaN_afterDaz b mxcsr]
  simp only [roundElement]
  split_ifs <;> simp_all [roundFinite_ie]

/-- With `imm8[3] = 1` there is no precision condition (30_encoding.md R65). -/
theorem roundElement_pe_of_suppress {imm8 : BitVec 8} (h : suppressPrecision imm8 = true) (b : Word64) (mxcsr : BitVec 32) :
    (roundElement b imm8 mxcsr).pe = false := by
  simp only [roundElement]
  split_ifs <;> simp [roundFinite_pe_of_suppress h]

theorem unmasked_eq_false_iff (m : BitVec 32) (ie pe : Bool) :
    unmasked m ie pe = false ↔ (mxcsrIM m = true ∨ ie = false) ∧ (mxcsrPM m = true ∨ pe = false) := by
  cases ie <;> cases pe <;> simp [unmasked]

/-- `IEany` of a form. -/
def formIe (s : State) (i : Instr) : Bool := ieAny s (vlenOf i) (maskOf i) (immOf i) (tmpSrc s i)

/-- `PEany` of a form. -/
def formPe (s : State) (i : Instr) : Bool := peAny s (vlenOf i) (maskOf i) (immOf i) (tmpSrc s i)

/-- `NEW` of a form. -/
def formDest (s : State) (i : Instr) : Zmm := newDest s (vlenOf i) (dstOf i) (maskOf i) (immOf i) (tmpSrc s i)

theorem formIe_iff (s : State) (i : Instr) :
    formIe s i = true ↔ ∃ j, On s (vlenOf i) (maskOf i) j ∧ isSNaN (sourceOf s i j) = true := by
  rw [formIe, ieAny_iff]
  refine exists_congr fun j => and_congr_right fun hj => ?_
  rw [roundElement_ie, lane_tmpSrc s i hj.1]

theorem formPe_iff (s : State) (i : Instr) :
    formPe s i = true ↔
      ∃ j, On s (vlenOf i) (maskOf i) j ∧ (roundElement (sourceOf s i j) (immOf i) s.mxcsr).pe = true := by
  rw [formPe, peAny_iff]
  refine exists_congr fun j => and_congr_right fun hj => ?_
  rw [lane_tmpSrc s i hj.1]

/-- The form has no condition to raise: what `unmasked` finds in `TMP_SRC` is what `NoneUnmasked` says of the source. -/
theorem unmasked_form_eq_false_iff (s : State) (i : Instr) :
    unmasked s.mxcsr (formIe s i) (formPe s i) = false ↔ NoneUnmasked s (vlenOf i) (maskOf i) (immOf i) (sourceOf s i) := by
  rw [unmasked_eq_false_iff]
  simp only [NoneUnmasked, ← Bool.not_eq_true, formIe_iff, formPe_iff, not_exists, not_and]

/-- A form with a precision condition does not suppress it. -/
theorem suppressPrecision_of_formPe {s : State} {i : Instr} (h : formPe s i = true) : suppressPrecision (immOf i) = false := by
  obtain ⟨j, _, hpe⟩ := (formPe_iff s i).mp h
  cases hsup : suppressPrecision (immOf i) with
  | false => rfl
  | true => simp [roundElement_pe_of_suppress hsup] at hpe

/-! ### What a ready instruction with a readable operand does -/

/-- The whole memory operand is readable, if the form has one. -/
def OperandReadable (s : State) (i : Instr) : Prop := ∀ a n ss, operandOf s i = some (a, n, ss) → Readable a n s

theorem exec_of_ready {i : Instr} {s : State} (hr : Ready (vlenOf i) s) (ho : OperandReadable s i) :
    exec i s = formBody s i := by
  rw [exec_eq, gated_of_ready hr]
  cases h : operandOf s i with
  | none => rfl
  | some o => exact withOperand_of_readable (ho _ _ _ h) _

theorem formBody_of_isSae {i : Instr} (h : isSae i = true) (s : State) :
    formBody s i = complete s (dstOf i) (formDest s i) false false i.length :=
  if_pos h

theorem formBody_of_not_isSae {i : Instr} (h : isSae i = false) (s : State) :
    formBody s i = if unmasked s.mxcsr (formIe s i) (formPe s i) = true then simdFault (formIe s i) (formPe s i) s
      else complete s (dstOf i) (formDest s i) (formIe s i) (formPe s i) i.length :=
  if_neg (by simp [h])

/-- With no unmasked condition to raise, an instruction comes to its last check, the one on `pc + len`. -/
theorem formBody_of_quiet {i : Instr} {s : State}
    (h : isSae i = true ∨ NoneUnmasked s (vlenOf i) (maskOf i) (immOf i) (sourceOf s i)) :
    ∃ ie pe, formBody s i = complete s (dstOf i) (formDest s i) ie pe i.length := by
  cases hs : isSae i with
  | true => exact ⟨_, _, formBody_of_isSae hs s⟩
  | false =>
    have hu := (unmasked_form_eq_false_iff s i).mpr (h.resolve_left (by simp [hs]))
    rw [formBody_of_not_isSae hs, hu]
    exact ⟨_, _, if_neg Bool.false_ne_true⟩

/-- An instruction of any form that gets to its end with `pc + len` out of range is refused (92_eei_decisions.md D29). -/
theorem exec_refused_of_not_nextPcInRange {i : Instr} {s : State} (hr : Ready (vlenOf i) s) (ho : OperandReadable s i)
    (hpc : ¬ NextPcInRange i.length s)
    (hq : isSae i = true ∨ NoneUnmasked s (vlenOf i) (maskOf i) (immOf i) (sourceOf s i)) :
    exec i s = .refused .pcLeavesRange := by
  obtain ⟨ie, pe, hbody⟩ := formBody_of_quiet hq
  have hpc' : s.nextPcOk i.length = false := by rwa [← Bool.not_eq_true, nextPcOk_iff]
  rw [exec_of_ready hr ho, hbody, complete_of_not_inRange hpc']

theorem operandReadable_of_none {s : State} {i : Instr} (h : operandOf s i = none) : OperandReadable s i := by
  intro a n ss e
  simp [h] at e

theorem operandReadable_of_some {s : State} {i : Instr} {a : Addr} {n : Nat} {ss : Bool} (h : operandOf s i = some (a, n, ss))
    (hr : Readable a n s) : OperandReadable s i := by
  intro a' n' ss' e
  rw [h] at e
  cases e
  exact hr

/-- Settles O33: each form has no operand or a readable one, so `exec_refused_of_not_nextPcInRange` says it. -/
theorem nextPcOutOfRangeIsRefused : Obligations.NextPcOutOfRangeIsRefused := by
  intro vl dst src m k imm8 s hr
  refine ⟨fun hpc hq => ?_, fun hpc hread hq => ?_, fun hpc hread hq => ?_, fun hpc hvl => ?_⟩
  · cases vl <;> exact exec_refused_of_not_nextPcInRange hr (operandReadable_of_none rfl) hpc (.inr hq)
  · cases vl <;> exact exec_refused_of_not_nextPcInRange hr (operandReadable_of_some rfl hread) hpc (.inr hq)
  · cases vl <;> exact exec_refused_of_not_nextPcInRange hr (operandReadable_of_some rfl hread) hpc (.inr hq)
  · subst hvl
    exact exec_refused_of_not_nextPcInRange (i := .vrndscalepdZmmSae dst src k imm8) hr (operandReadable_of_none rfl) hpc
      (.inl rfl)

/-! ### Two states that agree on what the elements depend on -/

theorem anyEnabled_congr {s s' : State} {vl : VLen} {k : Mask} {p p' : Fin 8 → Bool}
    (hon : ∀ j : Fin 8, j.val < kl vl → enabled s' k j = enabled s k j) (hp : ∀ j, p' j = p j) :
    anyEnabled s' vl k p' = anyEnabled s vl k p := by
  obtain rfl : p' = p := funext hp
  rw [Bool.eq_iff_iff, anyEnabled_iff, anyEnabled_iff]
  refine exists_congr fun j => and_congr_left' <| and_congr_right fun hj => ?_
  rw [hon j hj]

/-- For the form `i` the two states have the same `TMP_SRC`, enable and round its elements alike, and hold the same old
destination. -/
structure SameElements (s s' : State) (i : Instr) : Prop where
  tmpSrc_eq : tmpSrc s' i = tmpSrc s i
  enabled_eq : ∀ j : Fin 8, j.val < kl (vlenOf i) → enabled s' (maskOf i) j = enabled s (maskOf i) j
  round_eq : ∀ b, roundElement b (immOf i) s'.mxcsr = roundElement b (immOf i) s.mxcsr
  dst_eq : s'.readZmm (dstOf i) = s.readZmm (dstOf i)

section SameElements
variable {s s' : State} {i : Instr}

theorem SameElements.formIe_eq (h : SameElements s s' i) : formIe s' i = formIe s i := by
  unfold formIe ieAny
  rw [h.tmpSrc_eq]
  exact anyEnabled_congr h.enabled_eq fun j => by rw [h.round_eq]

theorem SameElements.formPe_eq (h : SameElements s s' i) : formPe s' i = formPe s i := by
  unfold formPe peAny
  rw [h.tmpSrc_eq]
  exact anyEnabled_congr h.enabled_eq fun j => by rw [h.round_eq]

theorem SameElements.formDest_eq (h : SameElements s s' i) : formDest s' i = formDest s i := by
  unfold formDest newDest
  rw [h.tmpSrc_eq]
  refine mkLanes_congr fun j => ?_
  by_cases hj : j.val < kl (vlenOf i)
  · simp only [if_pos hj, h.enabled_eq j hj, h.round_eq, h.dst_eq]
  · simp only [if_neg hj]

end SameElements

/-! ### The opmask registers (R15, 30_encoding.md R66) -/

/-- The machine with other opmask registers. -/
def State.withK (s : State) (k' : Vector (BitVec 64) 8) : State := { s with k := k' }

section WithK
variable {s t : State} {k' : Vector (BitVec 64) 8} {i : Instr}

theorem withK_tmpSrc : tmpSrc (s.withK k') i = tmpSrc s i := by cases i <;> rfl

theorem withK_operandOf : operandOf (s.withK k') i = operandOf s i := by cases i <;> rfl

/-- `enabled(j)` reads bit `j` of the selected opmask register, and nothing with `aaa = 000b`. -/
theorem withK_enabled {k : Mask} {j : Fin 8}
    (h : k.aaa ≠ 0 → (k'[k.aaa.toNat]'k.aaa.isLt).getLsbD j.val = (s.readK k.aaa).getLsbD j.val) :
    enabled (s.withK k') k j = enabled s k j := by
  by_cases hk : k.aaa = 0
  · simp [enabled, hk]
  · simp only [enabled, ← h hk]
    rfl

theorem withK_sameElements
    (h : (maskOf i).aaa ≠ 0 → ∀ j, j < kl (vlenOf i) →
      (k'[(maskOf i).aaa.toNat]'(maskOf i).aaa.isLt).getLsbD j = (s.readK (maskOf i).aaa).getLsbD j) :
    SameElements s (s.withK k') i where
  tmpSrc_eq := withK_tmpSrc
  enabled_eq j hj := withK_enabled fun ha => h ha j hj
  round_eq _ := rfl
  dst_eq := rfl

theorem withK_complete {dst : BitVec 5} {new : Zmm} {ie pe : Bool} {n : Nat} (h : complete s dst new ie pe n = .next t) :
    complete (s.withK k') dst new ie pe n = .next (t.withK k') := by
  obtain ⟨hpc, rfl⟩ := complete_next h
  exact complete_of_inRange (s := s.withK k') hpc dst new ie pe

theorem withK_formBody (hsame : SameElements s (s.withK k') i) (h : formBody s i = .next t) :
    formBody (s.withK k') i = .next (t.withK k') := by
  cases hs : isSae i with
  | true =>
    rw [formBody_of_isSae hs] at h ⊢
    rw [hsame.formDest_eq]
    exact withK_complete h
  | false =>
    rw [formBody_of_not_isSae hs] at h ⊢
    rw [hsame.formDest_eq, hsame.formIe_eq, hsame.formPe_eq]
    split at h
    · rw [simdFault_eq] at h
      cases h
    · rename_i hquiet
      rw [← withK_complete h]
      exact if_neg hquiet

end WithK

/-- Settles O36: the opmask registers are read by `enabled` only. -/
theorem unselectedOpmaskBitsDoNotMatter : Obligations.UnselectedOpmaskBitsDoNotMatter := by
  intro i s t k' hk h
  obtain ⟨hr, ho, _⟩ := exec_next h
  have ho' : OperandReadable (s.withK k') i := by
    rw [OperandReadable, withK_operandOf]
    exact ho
  rw [exec_of_ready hr ho] at h
  exact (exec_of_ready (s := s.withK k') hr ho').trans (withK_formBody (withK_sameElements hk) h)

/-! ### MXCSR (R17): what is read -/

theorem roundFinite_congr {imm8 : BitVec 8} {m m' : BitVec 32} (h : direction imm8 m' = direction imm8 m) (x : Word64) :
    roundFinite x imm8 m' = roundFinite x imm8 m := by
  unfold roundFinite
  rw [h]

/-- An element is rounded by DAZ, and by RC when `imm8[2] = 1`. -/
theorem roundElement_congr {imm8 : BitVec 8} {m m' : BitVec 32} (hdaz : mxcsrDAZ m' = mxcsrDAZ m)
    (hrc : imm8.getLsbD 2 = true → mxcsrRC m' = mxcsrRC m) (b : Word64) : roundElement b imm8 m' = roundElement b imm8 m := by
  have hx : afterDaz b m' = afterDaz b m := by rw [afterDaz, afterDaz, hdaz]
  have hdir : direction imm8 m' = direction imm8 m := by
    unfold direction
    split
    · exact hrc ‹_›
    · rfl
  simp only [roundElement, hx, roundFinite_congr hdir]

/-- PM is read only where there is a precision condition. -/
theorem unmasked_congr {m m' : BitVec 32} {ie pe : Bool} (him : mxcsrIM m' = mxcsrIM m)
    (hpm : pe = true → mxcsrPM m' = mxcsrPM m) : unmasked m' ie pe = unmasked m ie pe := by
  cases pe with
  | false => simp [unmasked, him]
  | true => simp [unmasked, him, hpm rfl]

/-- Which flags an unmasked exception sets does not depend on MXCSR. -/
theorem exists_faultFlags_eq_setFlags (ie pe : Bool) (n : Nat) : ∃ a b, ∀ m, faultFlags m ie pe n = setFlags m a b := by
  unfold faultFlags
  split <;> exact ⟨_, _, fun _ => rfl⟩

/-! ### MXCSR (R17): what becomes of it -/

/-- The machine with another MXCSR. -/
def State.withMxcsr (s : State) (m' : BitVec 32) : State := { s with mxcsr := m' }

/-- The fault that `e` makes of a state carries that state, and takes nothing else from it. -/
structure CarriesState (e : State → Fault) : Prop where
  left_eq : ∀ t, (e t).left = t
  vector_eq : ∀ t u, (e t).vector = (e u).vector
  errorCode_eq : ∀ t u, (e t).errorCode = (e u).errorCode
  recordedAddress_eq : ∀ t u, (e t).recordedAddress = (e u).recordedAddress

theorem carriesState_invalidOpcode : CarriesState .invalidOpcode :=
  ⟨fun _ => rfl, fun _ _ => rfl, fun _ _ => rfl, fun _ _ => rfl⟩
theorem carriesState_deviceNotAvailable : CarriesState .deviceNotAvailable :=
  ⟨fun _ => rfl, fun _ _ => rfl, fun _ _ => rfl, fun _ _ => rfl⟩
theorem carriesState_stackFault : CarriesState .stackFault :=
  ⟨fun _ => rfl, fun _ _ => rfl, fun _ _ => rfl, fun _ _ => rfl⟩
theorem carriesState_generalProtection : CarriesState .generalProtection :=
  ⟨fun _ => rfl, fun _ _ => rfl, fun _ _ => rfl, fun _ _ => rfl⟩
theorem carriesState_pageFault (code : BitVec 32) (addr : Addr) : CarriesState (.pageFault code addr) :=
  ⟨fun _ => rfl, fun _ _ => rfl, fun _ _ => rfl, fun _ _ => rfl⟩
theorem carriesState_simdException : CarriesState .simdException :=
  ⟨fun _ => rfl, fun _ _ => rfl, fun _ _ => rfl, fun _ _ => rfl⟩

section WithMxcsr
variable {s : State} {m m' : BitVec 32} {i : Instr}

@[simp] theorem withMxcsr_mxcsr : (s.withMxcsr m').mxcsr = m' := rfl
@[simp] theorem withMxcsr_mode : (s.withMxcsr m').mode = s.mode := rfl
@[simp] theorem withMxcsr_cr0Ts : (s.withMxcsr m').cr0Ts = s.cr0Ts := rfl
@[simp] theorem withMxcsr_xlat : (s.withMxcsr m').xlat = s.xlat := rfl
@[simp] theorem withMxcsr_draws : (s.withMxcsr m').draws = s.draws := rfl
@[simp] theorem withMxcsr_osEnabled : (s.withMxcsr m').osEnabled = s.osEnabled := rfl
@[simp] theorem withMxcsr_featureOk (vl : VLen) : (s.withMxcsr m').featureOk vl = s.featureOk vl := rfl

theorem withMxcsr_tmpSrc : tmpSrc (s.withMxcsr m') i = tmpSrc s i := by cases i <;> rfl

theorem withMxcsr_operandOf : operandOf (s.withMxcsr m') i = operandOf s i := by cases i <;> rfl

theorem withMxcsr_sameElements (hdaz : mxcsrDAZ m' = mxcsrDAZ s.mxcsr)
    (hrc : (immOf i).getLsbD 2 = true → mxcsrRC m' = mxcsrRC s.mxcsr) : SameElements s (s.withMxcsr m') i where
  tmpSrc_eq := withMxcsr_tmpSrc
  enabled_eq _ _ := rfl
  round_eq := roundElement_congr hdaz hrc
  dst_eq := rfl

theorem SameFlagsSet.ofFault {e : State → Fault} (he : CarriesState e) {left : State} (ie pe : Bool)
    (hleft : left.mxcsr = setFlags m ie pe) :
    SameFlagsSet m m' (.fault (e left)) (.fault (e (left.withMxcsr (setFlags m' ie pe)))) := by
  refine ⟨_, ie, pe, ?_, rfl, he.vector_eq _ _, he.errorCode_eq _ _, he.recordedAddress_eq _ _, ?_⟩
  · rw [he.left_eq, hleft]
  · rw [he.left_eq, he.left_eq]
    rfl

/-- A fault before any condition is looked at sets no flag. -/
theorem SameFlagsSet.ofRaise {e : State → Fault} (he : CarriesState e) :
    SameFlagsSet s.mxcsr m' (raise e s) (raise e (s.withMxcsr m')) := by
  have h := SameFlagsSet.ofFault (m' := m') he (left := s) false false (setFlags_false _).symm
  rwa [setFlags_false] at h

theorem SameFlagsSet.ofGated {vl : VLen} {body body' : Result} (h : SameFlagsSet s.mxcsr m' body body') :
    SameFlagsSet s.mxcsr m' (gated vl s body) (gated vl (s.withMxcsr m') body') := by
  cases hmode : s.mode with
  | realAddress | virtual8086 =>
    simp only [gated, withMxcsr_mode, hmode]
    exact .ofRaise carriesState_invalidOpcode
  | protected32 | compatibility =>
    simp only [gated, withMxcsr_mode, hmode]
    rfl
  | bits64 =>
    simp only [gated, withMxcsr_mode, hmode]
    rw [withMxcsr_osEnabled, withMxcsr_featureOk, withMxcsr_cr0Ts]
    split_ifs
    · exact .ofRaise carriesState_invalidOpcode
    · exact .ofRaise carriesState_deviceNotAvailable
    · exact h

theorem SameFlagsSet.ofWithOperand {ss : Bool} {a : Addr} {n : Nat} {body body' : Result}
    (h : SameFlagsSet s.mxcsr m' body body') :
    SameFlagsSet s.mxcsr m' (withOperand s ss a n body) (withOperand (s.withMxcsr m') ss a n body') := by
  simp only [withOperand, withMxcsr_xlat]
  cases translateAccess s.xlat a n .dataRead with
  | allow => exact h
  | nonCanonical =>
    cases ss with
    | true => exact .ofRaise carriesState_stackFault
    | false => exact .ofRaise carriesState_generalProtection
  | pageFault code addr => exact .ofRaise (carriesState_pageFault code addr)
  | sideEffects => rfl

theorem SameFlagsSet.ofBehindOperand {o : Option (Addr × Nat × Bool)} {body body' : Result}
    (h : SameFlagsSet s.mxcsr m' body body') :
    SameFlagsSet s.mxcsr m' (behindOperand s o body) (behindOperand (s.withMxcsr m') o body') := by
  cases o with
  | none => exact h
  | some o => exact .ofWithOperand h

theorem SameFlagsSet.ofSimdFault (ie pe : Bool) :
    SameFlagsSet s.mxcsr m' (simdFault ie pe s) (simdFault ie pe (s.withMxcsr m')) := by
  obtain ⟨a, b, hflags⟩ := exists_faultFlags_eq_setFlags ie pe s.draws
  have he : CarriesState (if s.cr4Osxmmexcpt then .simdException else .invalidOpcode) := by
    split
    · exact carriesState_simdException
    · exact carriesState_invalidOpcode
  rw [simdFault_eq, simdFault_eq, withMxcsr_draws, withMxcsr_mxcsr, hflags, hflags]
  exact .ofFault he a b rfl

theorem SameFlagsSet.ofComplete (dst : BitVec 5) (new : Zmm) (ie pe : Bool) (n : Nat) :
    SameFlagsSet s.mxcsr m' (complete s dst new ie pe n) (complete (s.withMxcsr m') dst new ie pe n) := by
  cases hpc : s.nextPcOk n with
  | false =>
    rw [complete_of_not_inRange hpc, complete_of_not_inRange (s := s.withMxcsr m') hpc]
    rfl
  | true =>
    rw [complete_of_inRange hpc, complete_of_inRange (s := s.withMxcsr m') hpc]
    exact ⟨ie, pe, rfl, rfl⟩

theorem SameFlagsSet.ofFormBody (hsame : SameElements s (s.withMxcsr m') i)
    (him : isSae i = false → mxcsrIM m' = mxcsrIM s.mxcsr)
    (hpm : isSae i = false → suppressPrecision (immOf i) = false → mxcsrPM m' = mxcsrPM s.mxcsr) :
    SameFlagsSet s.mxcsr m' (formBody s i) (formBody (s.withMxcsr m') i) := by
  cases hs : isSae i with
  | true =>
    rw [formBody_of_isSae hs, formBody_of_isSae hs, hsame.formDest_eq]
    exact .ofComplete ..
  | false =>
    have hunmasked : unmasked m' (formIe s i) (formPe s i) = unmasked s.mxcsr (formIe s i) (formPe s i) :=
      unmasked_congr (him hs) fun hpe => hpm hs (suppressPrecision_of_formPe hpe)
    rw [formBody_of_not_isSae hs, formBody_of_not_isSae hs, hsame.formDest_eq, hsame.formIe_eq, hsame.formPe_eq,
      withMxcsr_mxcsr, hunmasked]
    split
    · exact .ofSimdFault ..
    · exact .ofComplete ..

end WithMxcsr

/-- Settles O34: DAZ and RC are read by the rounding, IM and PM by `unmasked`, and every outcome leaves MXCSR by `setFlags`. -/
theorem unreadMxcsrBitsDoNotMatter : Obligations.UnreadMxcsrBitsDoNotMatter := by
  intro i s m' hdaz hrc him hpm
  change SameFlagsSet s.mxcsr m' (exec i s) (exec i (s.withMxcsr m'))
  rw [exec_eq, exec_eq, withMxcsr_operandOf]
  exact .ofGated (.ofBehindOperand (.ofFormBody (withMxcsr_sameElements hdaz hrc) him hpm))

end Sys2Proof.Machine
end

section
/-! PROOFS of the statements of 20_memory.md: how memory is read (R31, R32), translated (R36) and addressed (R38), which bytes of an
instruction are fetched, and the faults of the fetch (R45) and of the operands (R46). -/

namespace Sys2Proof

/-! ### The bytes the decoder reads (R45, 30_encoding.md R69) -/

/-- Of `bs`, the parser reads all but what it hands on: those bytes, which it counts from `k`, parse alone to the same
operand. -/
def ParsesExactly (parse : List Byte → MemParse) (k : Nat) (bs : List Byte) (p : MemOperand × Nat × List Byte) : Prop :=
  ∃ used, bs = used ++ p.2.2 ∧ p.2.1 = k + used.length ∧ parse used = some (p.1, p.2.1, [])

/-- Of `bs`, which stand after `k` bytes of the instruction, the decoder reads the first `len - k`: those alone decode to the
same instruction. -/
def DecodesExactly (dec : List Byte → Decoded) (k : Nat) (bs : List Byte) (i : Instr) (len : Nat) : Prop :=
  ∃ used more, bs = used ++ more ∧ len = k + used.length ∧ dec used = .form i len

theorem parseDisp32_exact {mk : BitVec 32 → MemOperand} {k : Nat} {bs : List Byte} {p : MemOperand × Nat × List Byte}
    (h : parseDisp32 mk k bs = some p) : ParsesExactly (parseDisp32 mk k) k bs p := by
  rcases bs with _ | ⟨b0, _ | ⟨b1, _ | ⟨b2, _ | ⟨b3, tail⟩⟩⟩⟩ <;> cases h
  exact ⟨[b0, b1, b2, b3], rfl, rfl, rfl⟩

theorem parseDisp_exact {mod : BitVec 2} {mk : Disp → MemOperand} {k : Nat} {bs : List Byte} {p : MemOperand × Nat × List Byte}
    (h : parseDisp mod mk k bs = some p) : ParsesExactly (parseDisp mod mk k) k bs p := by
  unfold ParsesExactly parseDisp at *
  split_ifs at h ⊢ with h0 h1
  · cases h
    exact ⟨[], rfl, rfl, rfl⟩
  · rcases bs with _ | ⟨d, tail⟩ <;> cases h
    exact ⟨[d], rfl, rfl, rfl⟩
  · rcases bs with _ | ⟨b0, _ | ⟨b1, _ | ⟨b2, _ | ⟨b3, tail⟩⟩⟩⟩ <;> cases h
    exact ⟨[b0, b1, b2, b3], rfl, rfl, rfl⟩

theorem parseMem_exact {p0 modrm : Byte} {bs : List Byte} {p : MemOperand × Nat × List Byte} (h : parseMem p0 modrm bs = some p) :
    ParsesExactly (parseMem p0 modrm) 0 bs p := by
  unfold ParsesExactly parseMem at *
  dsimp only at h ⊢
  split_ifs at h ⊢ with h0 h1
  · rcases bs with _ | ⟨sib, tail⟩
    · cases h
    · dsimp only at h
      split_ifs at h with hbase
      · obtain ⟨used, rfl, hn, hused⟩ := parseDisp32_exact h
        exact ⟨sib :: used, rfl, by rw [hn, List.length_cons]; omega, by simpa only [if_pos hbase] using hused⟩
      · obtain ⟨used, rfl, hn, hused⟩ := parseDisp_exact h
        exact ⟨sib :: used, rfl, by rw [hn, List.length_cons]; omega, by simpa only [if_neg hbase] using hused⟩
  · exact parseDisp32_exact h
  · exact parseDisp_exact h

theorem decodeReg_exact {sw : Bool} {p0 p2 modrm : Byte} {bs : List Byte} {i : Instr} {len : Nat}
    (h : decodeReg sw p0 p2 modrm bs = .form i len) : DecodesExactly (decodeReg sw p0 p2 modrm) 6 bs i len := by
  unfold DecodesExactly decodeReg at *
  dsimp only at h ⊢
  split_ifs at h ⊢ with h0 h1
  · rcases bs with _ | ⟨imm8, tail⟩ <;> cases h
    exact ⟨[imm8], tail, rfl, rfl, rfl⟩
  · cases hvl : vlenOfLL (p2.extractLsb' 5 2) with
    | none => simp [hvl] at h
    | some vl =>
      rcases bs with _ | ⟨imm8, tail⟩ <;> simp only [hvl, reduceCtorEq, Decoded.form.injEq] at h
      obtain ⟨rfl, rfl⟩ := h
      exact ⟨[imm8], tail, rfl, rfl, rfl⟩

theorem decodeMem_exact {p0 p2 modrm : Byte} {bs : List Byte} {i : Instr} {len : Nat}
    (h : decodeMem p0 p2 modrm bs = .form i len) : DecodesExactly (decodeMem p0 p2 modrm) 6 bs i len := by
  unfold DecodesExactly decodeMem at *
  cases hvl : vlenOfLL (p2.extractLsb' 5 2) with
  | none => simp [hvl] at h
  | some vl =>
    simp only [hvl] at h ⊢
    cases hp : parseMem p0 modrm bs with
    | none => simp [hp] at h
    | some p =>
      obtain ⟨m, n, tail⟩ := p
      obtain ⟨used, rfl, hn, hused⟩ := parseMem_exact hp
      rw [hp] at h
      rcases tail with _ | ⟨imm8, tail⟩ <;> cases h
      have hparse := parseMem_append (more := [imm8]) hused
      refine ⟨used ++ [imm8], tail, by simp, ?_, ?_⟩
      · dsimp only at hn
        rw [hn, List.length_append, List.length_singleton]
        omega
      · rw [hparse]
        rfl

theorem decodeEvex_exact {sw : Bool} {p0 p1 p2 op : Byte} {bs : List Byte} {i : Instr} {len : Nat}
    (h : decodeEvex sw p0 p1 p2 op bs = .form i len) : DecodesExactly (decodeEvex sw p0 p1 p2 op) 5 bs i len := by
  unfold DecodesExactly decodeEvex at *
  split_ifs at h ⊢
  rcases bs with _ | ⟨modrm, tail⟩
  · cases h
  · dsimp only at h
    split_ifs at h with hreg
    · obtain ⟨used, more, rfl, hlen, hused⟩ := decodeReg_exact h
      exact ⟨modrm :: used, more, rfl, by rw [hlen, List.length_cons]; omega, by simpa only [if_pos hreg] using hused⟩
    · obtain ⟨used, more, rfl, hlen, hused⟩ := decodeMem_exact h
      exact ⟨modrm :: used, more, rfl, by rw [hlen, List.length_cons]; omega, by simpa only [if_neg hreg] using hused⟩

/-- What decodes to an instruction begins with as many bytes as its length says, which decode to it alone. -/
theorem decode_exact {sw : Bool} {bs : List Byte} {i : Instr} {len : Nat} (h : decode sw bs = .form i len) :
    DecodesExactly (decode sw) 0 bs i len := by
  unfold DecodesExactly
  rcases bs with _ | ⟨b0, tail⟩
  · cases h
  · simp only [decode] at h
    split_ifs at h with hrefused hud hevex
    · rcases tail with _ | ⟨b1, tail⟩
      · cases h
      · dsimp only at h
        split at h <;> cases h
    · rcases tail with _ | ⟨p0, _ | ⟨p1, _ | ⟨p2, _ | ⟨op, rest⟩⟩⟩⟩
      iterate 4 · cases h
      obtain ⟨used, more, rfl, hlen, hused⟩ := decodeEvex_exact h
      refine ⟨b0 :: p0 :: p1 :: p2 :: op :: used, more, rfl, by simp only [hlen, List.length_cons]; omega, ?_⟩
      simpa only [decode, if_neg hrefused, if_neg hud, if_neg hevex] using hused

/-- Settles O4: fewer bytes, if they settled anything, would settle the instruction, and then hold all of it. -/
theorem decoderReadsExactlyTheInstruction : Obligations.DecoderReadsExactlyTheInstruction := by
  intro sw bytes i len h
  obtain ⟨used, more, rfl, hlen, hused⟩ := decode_exact h
  rw [Nat.zero_add] at hlen
  refine ⟨by rwa [hlen, List.take_left, ← hlen], fun n hn => ?_⟩
  by_contra hshort
  have hform : decode sw ((used ++ more).take n) = .form i len := by
    rw [← h, ← decode_append ((used ++ more).drop n) hshort, List.take_append_drop]
  obtain ⟨used', more', htake, hlen', _⟩ := decode_exact hform
  have hle := congrArg List.length htake
  simp only [List.length_take, List.length_append] at hle
  omega

end Sys2Proof

namespace Sys2Proof.Machine

/-! ### Reads of memory (R31, R32) -/

/-- Bit `b` of `MemRead(a, n)` is bit `b mod 8` of the byte at `a + b / 8`. -/
theorem getLsbD_memBits (m : List Host.Cell) (a : Addr) {n b : Nat} (h : b < 8 * n) :
    (memBits m a n).getLsbD b = (Memory.read m (a + BitVec.ofNat 64 (b / 8)).toNat).getLsbD (b % 8) := by
  induction n with
  | zero => omega
  | succ n ih =>
    rw [memBits, BitVec.getLsbD_cast, BitVec.getLsbD_append]
    by_cases hb : b < 8 * n
    · rw [if_pos hb, ih hb]
    · have hdiv : b / 8 = n := by omega
      have hmod : b % 8 = b - 8 * n := by omega
      rw [if_neg hb, hdiv, hmod]

/-- Bytes `i` to `i + w - 1` of a read are the read of `w` bytes at `a + i`. -/
theorem extractLsb'_memBits (m : List Host.Cell) (a : Addr) {n i w : Nat} (h : i + w ≤ n) :
    (memBits m a n).extractLsb' (8 * i) (8 * w) = memBits m (a + BitVec.ofNat 64 i) w := by
  apply BitVec.eq_of_getLsbD_eq
  intro b hb
  have hdiv : (8 * i + b) / 8 = i + b / 8 := by omega
  have hmod : (8 * i + b) % 8 = b % 8 := by omega
  rw [BitVec.getLsbD_extractLsb', decide_eq_true hb, Bool.true_and, getLsbD_memBits m a (by omega), getLsbD_memBits m _ hb,
    hdiv, hmod, BitVec.ofNat_add, BitVec.add_assoc]

theorem memBits_one (m : List Host.Cell) (a : Addr) : memBits m a 1 = Memory.read m a.toNat := by
  apply BitVec.eq_of_getLsbD_eq
  intro b hb
  have hdiv : b / 8 = 0 := by omega
  have hmod : b % 8 = b := by omega
  rw [getLsbD_memBits m a hb, hdiv, hmod, BitVec.add_zero]

/-- Settles O45: a slice of one byte of the read is the read of that byte. -/
theorem memoryReadsAreLittleEndian : Obligations.MemoryReadsAreLittleEndian := fun s a _ _ hi =>
  (extractLsb'_memBits s.mem a hi).trans (memBits_one s.mem _)

/-- Settles O46: element `j` is the eight bytes from byte `8j` of the one read on. -/
theorem elementsLieAtTheirAddresses : Obligations.ElementsLieAtTheirAddresses := by
  intro s vl a j hj
  have helem : lane (loadFull s vl a) j = memBits s.mem (a + BitVec.ofNat 64 (8 * j.val)) 8 := lane_loadFull hj
  have hslice : (memBits s.mem a (8 * kl vl)).extractLsb' (64 * j.val) 64 =
      memBits s.mem (a + BitVec.ofNat 64 (8 * j.val)) 8 := by
    rw [show 64 * j.val = 8 * (8 * j.val) by omega]
    exact extractLsb'_memBits (i := 8 * j.val) (w := 8) s.mem a (by omega)
  exact ⟨helem.trans hslice.symm, helem, lane_loadBcst hj⟩

/-! ### Translation as a table (R36) -/

theorem ruleCovers_iff (r : XlatRule) (a : Addr) (n : Nat) (kind : AccessKind) :
    ruleCovers r a n kind = true ↔ r.kind = kind ∧ (r.lo ≤ a.toNat ∧ a.toNat ≤ r.hi) ∧ r.nlo ≤ n ∧ n ≤ r.nhi := by
  simp only [ruleCovers, Bool.and_eq_true, decide_eq_true_eq, and_assoc]

/-- The line that speaks of one single access, and answers what `f` answers. -/
def singleAccessRule (f : Addr → Nat → AccessKind → Verdict) (p : Addr × Nat × AccessKind) : XlatRule :=
  ⟨p.2.2, p.1.toNat, p.1.toNat, p.2.1, p.2.1, f p.1 p.2.1 p.2.2⟩

theorem ruleCovers_singleAccessRule (f : Addr → Nat → AccessKind → Verdict) (p : Addr × Nat × AccessKind) (a : Addr) (n : Nat)
    (kind : AccessKind) : ruleCovers (singleAccessRule f p) a n kind = true ↔ p = (a, n, kind) := by
  obtain ⟨a', n', kind'⟩ := p
  rw [ruleCovers_iff]
  simp only [singleAccessRule, Prod.mk.injEq, BitVec.toNat_eq, Nat.le_antisymm_iff]
  tauto

/-- A table of such lines answers as `f` does for every access that has a line. -/
theorem translateAccess_singleAccessRules (f : Addr → Nat → AccessKind → Verdict) {ps : List (Addr × Nat × AccessKind)} {a : Addr}
    {n : Nat} {kind : AccessKind} (h : (a, n, kind) ∈ ps) :
    translateAccess (ps.map (singleAccessRule f)) a n kind = f a n kind := by
  have hfind : (ps.map (singleAccessRule f)).find? (fun r => ruleCovers r a n kind) =
      some (singleAccessRule f (a, n, kind)) := by
    induction ps with
    | nil => simp at h
    | cons p ps ih =>
      rw [List.map_cons]
      by_cases hp : p = (a, n, kind)
      · rw [List.find?_cons_of_pos (p := fun r => ruleCovers r a n kind) ((ruleCovers_singleAccessRule f p a n kind).mpr hp), hp]
      · rw [List.find?_cons_of_neg (p := fun r => ruleCovers r a n kind) (mt (ruleCovers_singleAccessRule f p a n kind).mp hp)]
        exact ih ((List.mem_cons.mp h).resolve_left (Ne.symm hp))
  rw [translateAccess, hfind]
  rfl

/-- The accesses of bounded width can be listed: there are `2^64` addresses and two kinds. -/
theorem exists_list_of_accesses (w : Nat) :
    ∃ ps : List (Addr × Nat × AccessKind), ∀ a n kind, n ≤ w → (a, n, kind) ∈ ps := by
  refine ⟨(List.range (2 ^ 64)).map (BitVec.ofNat 64) ×ˢ (List.range (w + 1) ×ˢ [.dataRead, .fetch]), fun a n kind hn => ?_⟩
  have ha : a ∈ (List.range (2 ^ 64)).map (BitVec.ofNat 64) :=
    List.mem_map.mpr ⟨a.toNat, List.mem_range.mpr a.isLt, by simp⟩
  have hkind : kind ∈ [AccessKind.dataRead, .fetch] := by cases kind <;> decide
  exact List.pair_mem_product.mpr ⟨ha, List.pair_mem_product.mpr ⟨List.mem_range.mpr (by omega), hkind⟩⟩

/-- Settles O48: the table has a line for each single access. -/
theorem everyTranslationHasATable : Obligations.EveryTranslationHasATable := by
  intro f
  obtain ⟨ps, hps⟩ := exists_list_of_accesses 64
  exact ⟨ps.map (singleAccessRule f), fun a n kind hn => translateAccess_singleAccessRules f (hps a n kind hn)⟩

/-! ### Effective addresses (R38, 30_encoding.md R64) -/

section EffAddr
variable (s : State) (n len : Nat) (b x : BitVec 4) (c : BitVec 2) (d : Disp) (d8 : BitVec 8) (d32 : BitVec 32)

@[simp] theorem dispValue_absent : dispValue n .absent = 0 := rfl
@[simp] theorem dispValue_disp8 : dispValue n (.disp8 d8) = d8.signExtend 64 * BitVec.ofNat 64 n := rfl
@[simp] theorem dispValue_disp32 : dispValue n (.disp32 d32) = d32.signExtend 64 := rfl

@[simp] theorem indexValue_four : indexValue s 4#4 c = 0 := rfl

theorem indexValue_of_ne {x : BitVec 4} (h : x ≠ 4) : indexValue s x c = s.readX x * BitVec.ofNat 64 (2 ^ c.toNat) := by
  have hpow : BitVec.twoPow 64 c.toNat = BitVec.ofNat 64 (2 ^ c.toNat) :=
    BitVec.eq_of_toNat_eq (by rw [BitVec.toNat_twoPow, BitVec.toNat_ofNat])
  rw [indexValue, if_neg h, BitVec.shiftLeft_eq_mul_twoPow, hpow]

@[simp] theorem effAddr_base : effAddr s n len (.base b d) = s.readX b + dispValue n d := rfl
@[simp] theorem effAddr_rip : effAddr s n len (.rip d32) = s.pc + BitVec.ofNat 64 len + d32.signExtend 64 := rfl
@[simp] theorem effAddr_sib : effAddr s n len (.sib b x c d) = s.readX b + indexValue s x c + dispValue n d := rfl
@[simp] theorem effAddr_sibNoBase : effAddr s n len (.sibNoBase x c d32) = indexValue s x c + d32.signExtend 64 := rfl

end EffAddr

/-- Settles O47: each of the four ways of addressing is `effAddr` at the number of bytes that `N` is. -/
theorem effectiveAddresses : Obligations.EffectiveAddresses := by
  intro s addr N h b x c d8 d32
  obtain ⟨n, rfl, rfl⟩ : ∃ n, (addr = fun m => effAddr s n (memLength m) m) ∧ N = BitVec.ofNat 64 n := by
    rcases h with h | h | h | h
    exacts [⟨16, h⟩, ⟨32, h⟩, ⟨64, h⟩, ⟨8, h⟩]
  have hrip : memLength (.rip d32) = 11 := rfl
  exact ⟨by simp, by simp, by simp, by simp, by simp, by simp, fun hx => by simp [indexValue_of_ne s c hx], by simp,
    by simp [hrip]⟩

/-! ### The memory operand that cannot be read (R46, 60_exceptions.md R123) -/

/-- The default segment is SS exactly with base RSP or RBP, with a SIB byte or without. -/
theorem usesStackSegment_iff (m : MemOperand) :
    usesStackSegment m = true ↔
      (∃ d, m = .base 4 d ∨ m = .base 5 d) ∨ ∃ x c d, m = .sib 4 x c d ∨ m = .sib 5 x c d := by
  cases m <;> simp [usesStackSegment, exists_or]

section Operand
variable {s : State} {ss : Bool} {a : Addr} {n : Nat} {body : Result}

theorem withOperand_of_nonCanonical (h : translateAccess s.xlat a n .dataRead = .nonCanonical) :
    withOperand s ss a n body = if ss then .fault (.stackFault s) else .fault (.generalProtection s) := by
  rw [withOperand, h]
  rfl

theorem withOperand_of_pageFault {code : BitVec 32} {addr : Addr}
    (h : translateAccess s.xlat a n .dataRead = .pageFault code addr) :
    withOperand s ss a n body = .fault (.pageFault code addr s) := by
  rw [withOperand, h]
  rfl

theorem withOperand_of_sideEffects (h : translateAccess s.xlat a n .dataRead = .sideEffects) :
    withOperand s ss a n body = .refused .sideEffectingRead := by
  rw [withOperand, h]

/-- Past the gate a memory form asks for its operand before anything else. -/
theorem exec_eq_withOperand {i : Instr} (hr : Ready (vlenOf i) s) (ho : operandOf s i = some (a, n, ss)) :
    exec i s = withOperand s ss a n (formBody s i) := by
  rw [exec_eq, gated_of_ready hr, ho]
  rfl

end Operand

@[simp] theorem vlenOf_memInstr (vl : VLen) (dst : BitVec 5) (m : MemOperand) (k : Mask) (imm8 : BitVec 8) :
    vlenOf (vl.memInstr dst m k imm8) = vl := by cases vl <;> rfl

@[simp] theorem vlenOf_bcstInstr (vl : VLen) (dst : BitVec 5) (m : MemOperand) (k : Mask) (imm8 : BitVec 8) :
    vlenOf (vl.bcstInstr dst m k imm8) = vl := by cases vl <;> rfl

theorem operandOf_memInstr (s : State) (vl : VLen) (dst : BitVec 5) (m : MemOperand) (k : Mask) (imm8 : BitVec 8) :
    operandOf s (vl.memInstr dst m k imm8) = some (fullAddr vl m s, 8 * kl vl, usesStackSegment m) := by cases vl <;> rfl

theorem operandOf_bcstInstr (s : State) (vl : VLen) (dst : BitVec 5) (m : MemOperand) (k : Mask) (imm8 : BitVec 8) :
    operandOf s (vl.bcstInstr dst m k imm8) = some (bcstAddr m s, 8, usesStackSegment m) := by cases vl <;> rfl

/-- Settles O32: full-width or broadcast, the form answers what its operand access answers. -/
theorem operandFaultsAreRaised : Obligations.OperandFaultsAreRaised := by
  intro vl dst m k imm8 s hr onStack
  have hstack : usesStackSegment m = true ↔ onStack := usesStackSegment_iff m
  have hmem := exec_eq_withOperand (by rwa [vlenOf_memInstr]) (operandOf_memInstr s vl dst m k imm8)
  have hbcst := exec_eq_withOperand (by rwa [vlenOf_bcstInstr]) (operandOf_bcstInstr s vl dst m k imm8)
  rw [hmem, hbcst]
  refine ⟨fun h => ?_, fun _ _ => withOperand_of_pageFault, fun h => ?_, fun _ _ => withOperand_of_pageFault,
    withOperand_of_sideEffects, withOperand_of_sideEffects⟩
  all_goals
    rw [withOperand_of_nonCanonical h]
    exact ⟨fun hs => if_pos (hstack.mpr hs), fun hs => if_neg (mt hstack.mp hs)⟩

/-! ### The fetch that cannot go on (R45, 10_state.md R12) -/

theorem step_of_short {s : State} (hm : s.mode = .bits64) (h : decode s.saeAnyLL s.fetch.1 = .short) :
    step s = fetchFault s.fetch s := by
  rw [step, if_neg (not_not.mpr hm), h]

/-- Where the byte after the code at `pc` cannot be had, the fetch draws the code and stops there. -/
theorem fetch_of_codeAt_of_stopped {s : State} {bs : List Byte} {stop : FetchStop} (hc : CodeAt s.pc bs s)
    (hlen : bs.length < 15) (hb : s.pc.toNat + bs.length < 2 ^ 64)
    (hstop : ∀ n, fetchFrom s.xlat s.mem (s.pc + BitVec.ofNat 64 bs.length) (n + 1) = ([], stop)) :
    s.fetch = (bs, stop) := by
  obtain ⟨more, stop', hfetch, hrest⟩ := fetchFrom_of_code hc hlen.le hb.le
  have hnext := hrest hb
  rw [show 15 - bs.length = 15 - bs.length - 1 + 1 by omega, hstop] at hnext
  cases hnext
  rwa [List.append_nil] at hfetch

theorem fetchFrom_of_allOnes {t : List XlatRule} {m : List Host.Cell} {a : Addr} (n : Nat) (ha : a = BitVec.allOnes 64)
    (h : translateAccess t a 1 .fetch = .allow) : fetchFrom t m a (n + 1) = ([Memory.read m a.toNat], .wraps) := by
  rw [fetchFrom, h]
  exact if_pos ha

/-- Code that ends at address `2^64 - 1` is all that the fetch draws. -/
theorem fetch_of_codeAt_of_wraps {s : State} {bs : List Byte} (hc : CodeAt s.pc bs s) (hlen : bs.length < 15)
    (hb : s.pc.toNat + bs.length = 2 ^ 64) : s.fetch = (bs, .wraps) := by
  have hpc := s.pc.isLt
  obtain ⟨init, last, rfl⟩ : ∃ init last, bs = init ++ [last] :=
    ⟨_, _, (List.dropLast_append_getLast (List.ne_nil_of_length_pos (by omega))).symm⟩
  rw [List.length_append, List.length_singleton] at hlen hb
  have hinit : CodeAt s.pc init s := fun i hi => by
    have h := hc i (by rw [List.length_append]; omega)
    rwa [List.getD_append _ _ _ _ hi] at h
  obtain ⟨hlast, hallow⟩ := hc init.length (by simp)
  obtain ⟨more, stop, hfetch, hrest⟩ := fetchFrom_of_code hinit (n := 15) (by omega) (by omega)
  have htop : s.pc + BitVec.ofNat 64 init.length = BitVec.allOnes 64 := by
    apply BitVec.eq_of_toNat_eq
    rw [BitVec.toNat_add, BitVec.toNat_ofNat, BitVec.toNat_allOnes]
    omega
  have hnext := hrest (by omega)
  rw [show 15 - init.length = 15 - init.length - 1 + 1 by omega, fetchFrom_of_allOnes _ htop hallow] at hnext
  cases hnext
  have hbyte : Memory.read s.mem (s.pc + BitVec.ofNat 64 init.length).toNat = last := by
    simpa [State.readByte] using hlast
  rwa [hbyte] at hfetch

/-- Settles O12: the fetch draws the bytes given, which do not settle the instruction, and `fetchFault` makes the outcome of
what stopped it. -/
theorem fetchFaultsAreRaised : Obligations.FetchFaultsAreRaised := by
  intro s bytes hm hc hlen hshort
  have hstep {stop : FetchStop} (hfetch : s.fetch = (bytes, stop)) : step s = fetchFault (bytes, stop) s := by
    rw [step_of_short hm (by rwa [hfetch]), hfetch]
  refine ⟨fun hb => ?_, fun hb => hstep (fetch_of_codeAt_of_wraps hc hlen hb)⟩
  have hstopped (stop : FetchStop)
      (h : ∀ n, fetchFrom s.xlat s.mem (s.pc + BitVec.ofNat 64 bytes.length) (n + 1) = ([], stop)) :
      step s = fetchFault (bytes, stop) s := hstep (fetch_of_codeAt_of_stopped hc hlen hb h)
  exact ⟨fun h => hstopped .nonCanonical fun n => by rw [fetchFrom, h],
    fun code addr h => hstopped (.pageFault code addr) fun n => by rw [fetchFrom, h],
    fun h => hstopped .sideEffects fun n => by rw [fetchFrom, h]⟩

end Sys2Proof.Machine
end

section
/-! PROOFS of the statements of 30_encoding.md: the fields of each byte and the numbers they spell, the decoder on each kind of bytes
(R67 to R69), both directions of the round trip (R50 to R66), and the bytes before 62h (R58). -/

namespace Sys2Proof

/-! ### The fields of the bytes (R51 to R57) -/

@[simp] theorem encodeP0_fields (r x b r' : Bool) : (encodeP0 r x b r').extractLsb' 7 1 = BitVec.ofBool (!r) ∧
    (encodeP0 r x b r').extractLsb' 6 1 = BitVec.ofBool (!x) ∧ (encodeP0 r x b r').extractLsb' 5 1 = BitVec.ofBool (!b) ∧
    (encodeP0 r x b r').extractLsb' 4 1 = BitVec.ofBool (!r') ∧ (encodeP0 r x b r').extractLsb' 0 4 = 3 := by
  revert r x b r'
  decide

theorem encodeP0_of_stored {p0 : Byte} (h : p0.extractLsb' 0 4 = 3) :
    encodeP0 (!p0.getLsbD 7) (!p0.getLsbD 6) (!p0.getLsbD 5) (!p0.getLsbD 4) = p0 := by
  revert p0
  decide

/-- X and B stand at bits 6 and 5 alone. -/
theorem encodeP0_getLsbD_congr {r x b r' x' b' : Bool} {n : Nat} (hx : n = 6 → x = x') (hb : n = 5 → b = b') :
    (encodeP0 r x b r').getLsbD n = (encodeP0 r x' b' r').getLsbD n := by
  rcases Nat.lt_or_ge n 8 with hn | hn
  · have hbits : ∀ (n : Fin 8) (r x b r' x' b' : Bool), (n.val = 6 → x = x') → (n.val = 5 → b = b') →
        (encodeP0 r x b r').getLsbD n = (encodeP0 r x' b' r').getLsbD n := by decide
    exact hbits ⟨n, hn⟩ r x b r' x' b' hx hb
  · rw [BitVec.getLsbD_of_ge _ _ hn, BitVec.getLsbD_of_ge _ _ hn]

/-- The map field and the reserved bits are the low half of P0. -/
theorem p0_low_iff {p0 : Byte} : p0.extractLsb' 0 4 = 3 ↔ p0.extractLsb' 0 2 = 3 ∧ p0.extractLsb' 2 2 = 0 := by
  revert p0
  decide

theorem eq_encodeP1 {p1 : Byte} (hw : p1.getLsbD 7 = true) (hv : p1.extractLsb' 3 4 = 15) (h2 : p1.getLsbD 2 = true)
    (hpp : p1.extractLsb' 0 2 = 1) : p1 = encodeP1 := by
  revert p1
  decide

/-- P2 with any L'L field: `encodeP2` where a vector length names the field. -/
def evexP2 (ll : BitVec 2) (b : Bool) (k : Mask) : Byte :=
  BitVec.ofBool k.z ++ (ll ++ (BitVec.ofBool b ++ (BitVec.ofBool true ++ k.aaa)))

theorem encodeP2_eq (vl : VLen) (b : Bool) (k : Mask) : encodeP2 vl b k = evexP2 vl.ll b k := rfl

theorem evexP2_fields (ll : BitVec 2) (b : Bool) (k : Mask) : (evexP2 ll b k).extractLsb' 5 2 = ll ∧
    (evexP2 ll b k).getLsbD 4 = b ∧ (evexP2 ll b k).getLsbD 3 = true ∧ maskOfP2 (evexP2 ll b k) = k := by
  obtain ⟨aaa, z⟩ := k
  revert ll b aaa z
  decide

theorem evexP2_of_stored {p2 : Byte} (h : p2.getLsbD 3 = true) :
    evexP2 (p2.extractLsb' 5 2) (p2.getLsbD 4) (maskOfP2 p2) = p2 := by
  revert p2
  decide

/-- Outside the middle field the middle field does not matter. -/
theorem getLsbD_append_congr {u v w n : Nat} (x : BitVec u) (y y' : BitVec v) (z : BitVec w) (h : n < w ∨ w + v ≤ n) :
    (x ++ (y ++ z)).getLsbD n = (x ++ (y' ++ z)).getLsbD n := by
  simp only [BitVec.getLsbD_append]
  rcases h with hlow | hhigh
  · simp [hlow]
  · simp [show ¬ n < v + w by omega]

/-- L'L stands at bits 6 and 5 alone. -/
theorem evexP2_getLsbD_congr {ll ll' : BitVec 2} {b : Bool} {k : Mask} {n : Nat} (h : ¬ (n = 5 ∨ n = 6)) :
    (evexP2 ll b k).getLsbD n = (evexP2 ll' b k).getLsbD n := 
  getLsbD_append_congr _ _ _ _ (by omega)

/-- A byte of fields of 2, 3 and 3 bits, as ModRM and SIB are. -/
theorem fields_append (hi : BitVec 2) (mid lo : BitVec 3) : (hi ++ (mid ++ lo) : Byte).extractLsb' 6 2 = hi ∧
    (hi ++ (mid ++ lo) : Byte).extractLsb' 3 3 = mid ∧ (hi ++ (mid ++ lo) : Byte).extractLsb' 0 3 = lo := by
  revert hi mid lo
  decide

theorem append_fields (b : Byte) : b.extractLsb' 6 2 ++ (b.extractLsb' 3 3 ++ b.extractLsb' 0 3) = b := by
  revert b
  decide

@[simp] theorem encodeModRM_fields (mod : BitVec 2) (dst : BitVec 5) (rm : BitVec 3) :
    (encodeModRM mod dst rm).extractLsb' 6 2 = mod ∧ (encodeModRM mod dst rm).extractLsb' 3 3 = dst.extractLsb' 0 3 ∧
    (encodeModRM mod dst rm).extractLsb' 0 3 = rm := fields_append _ _ _

@[simp] theorem encodeSib_fields (scale : BitVec 2) (index base : BitVec 3) :
    (encodeSib scale index base).extractLsb' 6 2 = scale ∧ (encodeSib scale index base).extractLsb' 3 3 = index ∧
    (encodeSib scale index base).extractLsb' 0 3 = base := fields_append _ _ _

open BitVec in
theorem disp32Of_encodeDisp32 (d : BitVec 32) :
    disp32Of (d.extractLsb' 0 8) (d.extractLsb' 8 8) (d.extractLsb' 16 8) (d.extractLsb' 24 8) = d := by
  have h16 : d.extractLsb' 8 8 ++ d.extractLsb' 0 8 = d.extractLsb' 0 (8 + 8) :=
    extractLsb'_append_extractLsb'_eq_extractLsb' rfl
  have h24 : d.extractLsb' 16 8 ++ d.extractLsb' 0 (8 + 8) = d.extractLsb' 0 (8 + (8 + 8)) :=
    extractLsb'_append_extractLsb'_eq_extractLsb' rfl
  unfold disp32Of
  rw [h16, h24]
  exact (extractLsb'_append_extractLsb'_eq_extractLsb' rfl).trans extractLsb'_eq_self

open BitVec in
theorem encodeDisp32_disp32Of (b0 b1 b2 b3 : Byte) : encodeDisp32 (disp32Of b0 b1 b2 b3) = [b0, b1, b2, b3] := by
  have h0 : (disp32Of b0 b1 b2 b3).extractLsb' 0 8 = b0 := by
    unfold disp32Of
    rw [extractLsb'_append_eq_of_add_le (by decide), extractLsb'_append_eq_of_add_le (by decide), extractLsb'_append_eq_right]
  have h1 : (disp32Of b0 b1 b2 b3).extractLsb' 8 8 = b1 := by
    unfold disp32Of
    rw [extractLsb'_append_eq_of_add_le (by decide), extractLsb'_append_eq_of_add_le (by decide), extractLsb'_append_eq_left]
  have h2 : (disp32Of b0 b1 b2 b3).extractLsb' 16 8 = b2 := by
    unfold disp32Of
    rw [extractLsb'_append_eq_of_add_le (by decide)]
    exact extractLsb'_append_eq_left
  have h3 : (disp32Of b0 b1 b2 b3).extractLsb' 24 8 = b3 := extractLsb'_append_eq_left
  rw [encodeDisp32, h0, h1, h2, h3]

/-! ### The register numbers (R61, 20_memory.md R38) -/

theorem dstNumber_encode (dst : BitVec 5) (x b : Bool) (mod : BitVec 2) (rm : BitVec 3) :
    dstNumber (encodeP0 (dst.getLsbD 3) x b (dst.getLsbD 4)) (encodeModRM mod dst rm) = dst := by
  simp only [dstNumber, encodeP0_fields, encodeModRM_fields]
  revert dst
  decide

theorem srcNumber_encode (src dst : BitVec 5) (r r' : Bool) (mod : BitVec 2) :
    srcNumber (encodeP0 r (src.getLsbD 4) (src.getLsbD 3) r') (encodeModRM mod dst (src.extractLsb' 0 3)) = src := by
  simp only [srcNumber, encodeP0_fields, encodeModRM_fields]
  revert src
  decide

theorem indexNumber_encode (index : BitVec 4) (r b r' : Bool) (scale : BitVec 2) (base : BitVec 3) :
    indexNumber (encodeP0 r (index.getLsbD 3) b r') (encodeSib scale (lowThree index) base) = index := by
  simp only [indexNumber, encodeP0_fields, encodeSib_fields]
  revert index
  decide

theorem baseNumber_encode (b : BitVec 4) (r x r' : Bool) :
    baseNumber (encodeP0 r x (b.getLsbD 3) r') (lowThree b) = b := by
  simp only [baseNumber, encodeP0_fields]
  revert b
  decide

theorem number_fields (hi : BitVec 1) (lo : BitVec 3) : (hi ++ lo : BitVec 4).getLsbD 3 = hi.getLsbD 0 ∧
    lowThree (hi ++ lo) = lo := by
  revert hi lo
  decide

theorem vectorNumber_fields (hi mid : BitVec 1) (lo : BitVec 3) :
    (hi ++ (mid ++ lo) : BitVec 5).getLsbD 4 = hi.getLsbD 0 ∧ (hi ++ (mid ++ lo) : BitVec 5).getLsbD 3 = mid.getLsbD 0 ∧
    (hi ++ (mid ++ lo) : BitVec 5).extractLsb' 0 3 = lo := by
  revert hi mid lo
  decide

theorem dstNumber_fields (p0 modrm : Byte) : (dstNumber p0 modrm).getLsbD 4 = !p0.getLsbD 4 ∧
    (dstNumber p0 modrm).getLsbD 3 = !p0.getLsbD 7 ∧ (dstNumber p0 modrm).extractLsb' 0 3 = modrm.extractLsb' 3 3 := by
  obtain ⟨h4, h3, h0⟩ := vectorNumber_fields (~~~(p0.extractLsb' 4 1)) (~~~(p0.extractLsb' 7 1)) (modrm.extractLsb' 3 3)
  exact ⟨h4.trans (by simp), h3.trans (by simp), h0⟩

theorem srcNumber_fields (p0 modrm : Byte) : (srcNumber p0 modrm).getLsbD 4 = !p0.getLsbD 6 ∧
    (srcNumber p0 modrm).getLsbD 3 = !p0.getLsbD 5 ∧ (srcNumber p0 modrm).extractLsb' 0 3 = modrm.extractLsb' 0 3 := by
  obtain ⟨h4, h3, h0⟩ := vectorNumber_fields (~~~(p0.extractLsb' 6 1)) (~~~(p0.extractLsb' 5 1)) (modrm.extractLsb' 0 3)
  exact ⟨h4.trans (by simp), h3.trans (by simp), h0⟩

theorem indexNumber_fields (p0 sib : Byte) : (indexNumber p0 sib).getLsbD 3 = !p0.getLsbD 6 ∧
    lowThree (indexNumber p0 sib) = sib.extractLsb' 3 3 := by
  obtain ⟨h3, h0⟩ := number_fields (~~~(p0.extractLsb' 6 1)) (sib.extractLsb' 3 3)
  exact ⟨h3.trans (by simp), h0⟩

theorem baseNumber_fields (p0 : Byte) (low : BitVec 3) : (baseNumber p0 low).getLsbD 3 = !p0.getLsbD 5 ∧
    lowThree (baseNumber p0 low) = low := by
  obtain ⟨h3, h0⟩ := number_fields (~~~(p0.extractLsb' 5 1)) low
  exact ⟨h3.trans (by simp), h0⟩

theorem encodeModRM_of_stored (p0 modrm : Byte) :
    encodeModRM (modrm.extractLsb' 6 2) (dstNumber p0 modrm) (modrm.extractLsb' 0 3) = modrm := by
  obtain ⟨-, -, hreg⟩ := dstNumber_fields p0 modrm
  rw [encodeModRM, hreg]
  exact append_fields modrm

theorem encodeSib_of_stored (p0 sib : Byte) :
    encodeSib (sib.extractLsb' 6 2) (lowThree (indexNumber p0 sib)) (sib.extractLsb' 0 3) = sib := by
  obtain ⟨-, hindex⟩ := indexNumber_fields p0 sib
  rw [encodeSib, hindex]
  exact append_fields sib

/-! ### The vector length and the forms that share a meaning (R62, R70) -/

theorem vlenOfLL_eq_some {ll : BitVec 2} {vl : VLen} : vlenOfLL ll = some vl ↔ ll = vl.ll := by
  cases vl <;> revert ll <;> decide

@[simp] theorem vlenOfLL_ll (vl : VLen) : vlenOfLL vl.ll = some vl := vlenOfLL_eq_some.mpr rfl

/-- The full-width or the broadcast form of a vector length, by EVEX.b. -/
def VLen.memForm (vl : VLen) (b : Bool) : BitVec 5 → MemOperand → Mask → BitVec 8 → Instr :=
  if b then vl.bcstInstr else vl.memInstr

/-- An instruction is a register form, a memory form or the `{sae}` form. -/
theorem Instr.form_cases {motive : Instr → Prop}
    (reg : ∀ (vl : VLen) (dst src : BitVec 5) (k : Mask) (imm8 : BitVec 8), motive (vl.regInstr dst src k imm8))
    (mem : ∀ (vl : VLen) (b : Bool) (dst : BitVec 5) (m : MemOperand) (k : Mask) (imm8 : BitVec 8),
      motive (vl.memForm b dst m k imm8))
    (sae : ∀ (dst src : BitVec 5) (k : Mask) (imm8 : BitVec 8), motive (.vrndscalepdZmmSae dst src k imm8)) :
    ∀ i : Instr, motive i
  | .vrndscalepdXmmReg _ _ _ _ => reg .v128 _ _ _ _
  | .vrndscalepdXmmMem _ _ _ _ => mem .v128 false _ _ _ _
  | .vrndscalepdXmmBcst _ _ _ _ => mem .v128 true _ _ _ _
  | .vrndscalepdYmmReg _ _ _ _ => reg .v256 _ _ _ _
  | .vrndscalepdYmmMem _ _ _ _ => mem .v256 false _ _ _ _
  | .vrndscalepdYmmBcst _ _ _ _ => mem .v256 true _ _ _ _
  | .vrndscalepdZmmReg _ _ _ _ => reg .v512 _ _ _ _
  | .vrndscalepdZmmMem _ _ _ _ => mem .v512 false _ _ _ _
  | .vrndscalepdZmmBcst _ _ _ _ => mem .v512 true _ _ _ _
  | .vrndscalepdZmmSae _ _ _ _ => sae _ _ _ _

section Forms

variable (vl : VLen) (b : Bool) (dst src : BitVec 5) (m : MemOperand) (k : Mask) (imm8 : BitVec 8)

@[simp] theorem regInstr_wf : (vl.regInstr dst src k imm8).wf = k.wf := by cases vl <;> rfl

@[simp] theorem regInstr_length : (vl.regInstr dst src k imm8).length = 7 := by cases vl <;> rfl

@[simp] theorem encode_regInstr : encode (vl.regInstr dst src k imm8) = encodeReg vl false dst src k imm8 := by cases vl <;> rfl

@[simp] theorem memForm_wf : (vl.memForm b dst m k imm8).wf = (k.wf && m.wf) := by cases vl <;> cases b <;> rfl

@[simp] theorem memForm_length : (vl.memForm b dst m k imm8).length = 7 + m.size := by cases vl <;> cases b <;> rfl

@[simp] theorem encode_memForm : encode (vl.memForm b dst m k imm8) = encodeMem vl b dst m k imm8 := by
  cases vl <;> cases b <;> rfl

@[simp] theorem memOf_memForm : Machine.memOf (vl.memForm b dst m k imm8) = some m := by cases vl <;> cases b <;> rfl

end Forms

/-- The encoding has the instruction's length, 7 to 12 bytes (R50). -/
theorem encode_length (i : Instr) : (encode i).length = i.length ∧ 7 ≤ i.length ∧ i.length ≤ 12 := by
  induction i using Instr.form_cases with
  | reg vl dst src k imm8 =>
    rw [encode_regInstr, regInstr_length]
    exact Laws.EncodedLength.ofReg vl false dst src k imm8
  | mem vl b dst m k imm8 =>
    rw [encode_memForm, memForm_length]
    exact Laws.EncodedLength.ofMem vl b dst m k imm8
  | sae dst src k imm8 => exact Laws.EncodedLength.ofReg .v512 true dst src k imm8

/-! ### The first byte (R58) -/

theorem isRefusedPrefix_iff {b : Byte} :
    isRefusedPrefix b = true ↔ b ∈ ([0x26, 0x2E, 0x36, 0x3E, 0x64, 0x65, 0x67] : List Byte) := by
  simp [isRefusedPrefix, or_assoc]

theorem isUdPrefix_iff {b : Byte} : isUdPrefix b = true ↔
    b = 0x66 ∨ b = 0xF2 ∨ b = 0xF3 ∨ b = 0xF0 ∨ (0x40 ≤ b.toNat ∧ b.toNat ≤ 0x4F) := by
  revert b
  decide

/-- No byte is of both kinds, so the order in which the decoder asks does not show. -/
theorem not_isRefusedPrefix_of_isUdPrefix {b : Byte} (h : isUdPrefix b = true) : ¬ isRefusedPrefix b = true := by
  revert b
  decide

theorem decode_of_refusedPrefix {sw : Bool} {b : Byte} {rest : List Byte} (h : isRefusedPrefix b = true) :
    decode sw (b :: rest) = .refusedLegacyPrefix := by
  simp [decode, h]

theorem decode_of_udPrefix {sw : Bool} {b0 b1 : Byte} {rest : List Byte} (h : isUdPrefix b0 = true) :
    decode sw (b0 :: b1 :: rest) = if b1 = 0x62 then .ud else .notThisInstruction := by
  simp [decode, h, not_isRefusedPrefix_of_isUdPrefix h]

theorem decode_of_otherByte {sw : Bool} {b : Byte} {rest : List Byte} (hr : ¬ isRefusedPrefix b = true)
    (hu : ¬ isUdPrefix b = true) (hb : b ≠ 0x62) : decode sw (b :: rest) = .notThisInstruction := by
  simp only [decode, if_neg hr, if_neg hu, if_pos hb]

theorem decode_evex (sw : Bool) (p0 p1 p2 op : Byte) (rest : List Byte) :
    decode sw (0x62 :: p0 :: p1 :: p2 :: op :: rest) = decodeEvex sw p0 p1 p2 op rest := rfl

/-- Only bytes that begin with 62h and hold P0, P1, P2 and an opcode byte decode to an instruction. -/
theorem decode_form_evex {sw : Bool} {bs : List Byte} {i : Instr} {len : Nat} (h : decode sw bs = .form i len) :
    ∃ p0 p1 p2 op rest, bs = 0x62 :: p0 :: p1 :: p2 :: op :: rest ∧ decodeEvex sw p0 p1 p2 op rest = .form i len := by
  rcases bs with _ | ⟨b0, tail⟩
  · cases h
  · simp only [decode] at h
    split_ifs at h with hrefused hud hevex
    · rcases tail with _ | ⟨b1, tail⟩
      · cases h
      · dsimp only at h
        split at h <;> cases h
    · rcases tail with _ | ⟨p0, _ | ⟨p1, _ | ⟨p2, _ | ⟨op, rest⟩⟩⟩⟩
      iterate 4 · cases h
      exact ⟨p0, p1, p2, op, rest, by rw [not_not.mp hevex], h⟩

/-! ### P0, P1, P2 and the opcode byte (R51 to R55, R67 to R69) -/

/-- The fields that say which instruction it is: the opcode map, P0[3:2], W, pp and the opcode byte. -/
abbrev IsVrndscalepd (p0 p1 op : Byte) : Prop :=
  p0.extractLsb' 0 4 = 3 ∧ p1.getLsbD 7 = true ∧ p1.extractLsb' 0 2 = 1 ∧ op = 0x09

/-- The fields that make the instruction illegal if they hold another value: P1[2], vvvv, V' and z with aaa. -/
abbrev LegalFields (p1 p2 : Byte) : Prop :=
  p1.getLsbD 2 = true ∧ p1.extractLsb' 3 4 = 15 ∧ p2.getLsbD 3 = true ∧ (maskOfP2 p2).wf = true

theorem maskOfP2_wf_iff {p2 : Byte} : (maskOfP2 p2).wf = true ↔ ¬ (p2.getLsbD 7 = true ∧ p2.extractLsb' 0 3 = 0) := by
  simp only [maskOfP2, Mask.wf, Bool.not_eq_true', ← Bool.not_eq_true, Bool.and_eq_true, beq_iff_eq]

section Evex

variable {sw : Bool} {p0 p1 p2 op : Byte} {rest : List Byte}

theorem decodeEvex_of_not_isVrndscalepd (h : ¬ IsVrndscalepd p0 p1 op) :
    decodeEvex sw p0 p1 p2 op rest = .notThisInstruction := by
  rw [IsVrndscalepd, p0_low_iff] at h
  rw [decodeEvex.eq_def, ← ite_or]
  refine if_pos ?_
  simp only [Bool.or_eq_true, Bool.not_eq_true', bne_iff_ne, ← Bool.not_eq_true]
  tauto

theorem decodeEvex_of_not_legalFields (h : IsVrndscalepd p0 p1 op) (hill : ¬ LegalFields p1 p2) :
    decodeEvex sw p0 p1 p2 op rest = .ud := by
  obtain ⟨hlow, hw, hpp, rfl⟩ := h
  obtain ⟨hmap, hres⟩ := p0_low_iff.mp hlow
  rw [LegalFields, maskOfP2_wf_iff] at hill
  simp only [decodeEvex, hmap, hres, hw, hpp, ← ite_or]
  refine (if_neg (by decide)).trans (if_pos ?_)
  simp only [Bool.and_eq_true, Bool.not_eq_true', bne_iff_ne, beq_iff_eq, ← Bool.not_eq_true]
  tauto

theorem decodeEvex_of_legalFields {modrm : Byte} (h : IsVrndscalepd p0 p1 op) (hl : LegalFields p1 p2) :
    decodeEvex sw p0 p1 p2 op (modrm :: rest) =
      if modrm.extractLsb' 6 2 = 3 then decodeReg sw p0 p2 modrm rest else decodeMem p0 p2 modrm rest := by
  obtain ⟨hlow, hw, hpp, rfl⟩ := h
  obtain ⟨hmap, hres⟩ := p0_low_iff.mp hlow
  obtain ⟨h2, hv, hv', hmask⟩ := hl
  rw [maskOfP2_wf_iff] at hmask
  simp only [decodeEvex, hmap, hres, hw, hpp, h2, hv, hv', Bool.and_eq_true, beq_iff_eq, if_neg hmask]
  rfl

/-- If the bytes after 62h decode to an instruction, every field has its one value, and a ModRM byte follows. -/
theorem decodeEvex_form {i : Instr} {len : Nat} (h : decodeEvex sw p0 p1 p2 op rest = .form i len) :
    IsVrndscalepd p0 p1 op ∧ LegalFields p1 p2 ∧ ∃ modrm tail, rest = modrm :: tail ∧
      (if modrm.extractLsb' 6 2 = 3 then decodeReg sw p0 p2 modrm tail else decodeMem p0 p2 modrm tail) = .form i len := by
  have hv : IsVrndscalepd p0 p1 op := by
    by_contra hn
    cases (decodeEvex_of_not_isVrndscalepd hn).symm.trans h
  have hl : LegalFields p1 p2 := by
    by_contra hn
    cases (decodeEvex_of_not_legalFields hv hn).symm.trans h
  refine ⟨hv, hl, ?_⟩
  rcases rest with _ | ⟨modrm, tail⟩
  · simp only [decodeEvex] at h
    split_ifs at h
  · exact ⟨modrm, tail, rfl, (decodeEvex_of_legalFields hv hl).symm.trans h⟩

end Evex

/-! ### A register source (R63) -/

section Reg

variable {sw : Bool} {p0 p2 modrm imm8 : Byte} {rest : List Byte}

theorem decodeReg_of_vlen {vl : VLen} (hb : p2.getLsbD 4 = false) (hll : p2.extractLsb' 5 2 = vl.ll) :
    decodeReg sw p0 p2 modrm (imm8 :: rest) =
      .form (vl.regInstr (dstNumber p0 modrm) (srcNumber p0 modrm) (maskOfP2 p2) imm8) 7 := by
  simp only [decodeReg, hb, hll, vlenOfLL_ll]
  rfl

theorem decodeReg_of_sae (hb : p2.getLsbD 4 = true) (hll : p2.extractLsb' 5 2 = 2 ∨ sw = true) :
    decodeReg sw p0 p2 modrm (imm8 :: rest) =
      .form (.vrndscalepdZmmSae (dstNumber p0 modrm) (srcNumber p0 modrm) (maskOfP2 p2) imm8) 7 := by
  have hnot : ¬ (p2.extractLsb' 5 2 ≠ 2 ∧ sw = false) := by
    rintro ⟨hne, rfl⟩
    exact hll.elim hne Bool.noConfusion
  simp only [decodeReg, hb, Bool.true_and, Bool.and_eq_true, bne_iff_ne, Bool.not_eq_true', if_neg hnot]
  rfl

theorem decodeReg_of_sae_refused (hb : p2.getLsbD 4 = true) (hll : p2.extractLsb' 5 2 ≠ 2) :
    decodeReg false p0 p2 modrm rest = .refusedSaeLength := by
  simp only [decodeReg, hb, Bool.true_and, Bool.not_false, Bool.and_true, bne_iff_ne, if_pos hll]

theorem decodeReg_of_no_vlen (hb : p2.getLsbD 4 = false) (hll : p2.extractLsb' 5 2 = 3) :
    decodeReg sw p0 p2 modrm rest = .ud := by
  simp only [decodeReg, hb, hll]
  rfl

theorem decodeReg_form {i : Instr} {len : Nat} (h : decodeReg sw p0 p2 modrm rest = .form i len) :
    len = 7 ∧ ∃ imm8 tail, rest = imm8 :: tail ∧
      ((∃ vl : VLen, p2.getLsbD 4 = false ∧ p2.extractLsb' 5 2 = vl.ll ∧
          i = vl.regInstr (dstNumber p0 modrm) (srcNumber p0 modrm) (maskOfP2 p2) imm8) ∨
        p2.getLsbD 4 = true ∧ (p2.extractLsb' 5 2 = 2 ∨ sw = true) ∧
          i = .vrndscalepdZmmSae (dstNumber p0 modrm) (srcNumber p0 modrm) (maskOfP2 p2) imm8) := by
  unfold decodeReg at h
  dsimp only at h
  split_ifs at h with hrefused hb
  · rcases rest with _ | ⟨imm8, tail⟩ <;> cases h
    exact ⟨rfl, imm8, tail, rfl, .inr ⟨hb, by simp [hb] at hrefused; tauto, rfl⟩⟩
  · cases hvl : vlenOfLL (p2.extractLsb' 5 2) with
    | none => simp [hvl] at h
    | some vl =>
      rcases rest with _ | ⟨imm8, tail⟩ <;> simp only [hvl, reduceCtorEq, Decoded.form.injEq] at h
      obtain ⟨rfl, rfl⟩ := h
      exact ⟨rfl, imm8, tail, rfl, .inl ⟨vl, by simpa using hb, vlenOfLL_eq_some.mp hvl, rfl⟩⟩

end Reg

/-! ### A memory source (R59, 20_memory.md R38) -/

section Mem

variable {p0 p2 modrm : Byte} {rest : List Byte}

theorem decodeMem_of_parse {vl : VLen} {m : MemOperand} {n : Nat} {imm8 : Byte} {tail : List Byte}
    (hll : p2.extractLsb' 5 2 = vl.ll) (hp : parseMem p0 modrm rest = some (m, n, imm8 :: tail)) :
    decodeMem p0 p2 modrm rest = .form (vl.memForm (p2.getLsbD 4) (dstNumber p0 modrm) m (maskOfP2 p2) imm8) (7 + n) := by
  simp only [decodeMem, hll, vlenOfLL_ll, hp, VLen.memForm, Decoded.form.injEq, true_and]
  omega

theorem decodeMem_of_no_vlen (hll : p2.extractLsb' 5 2 = 3) : decodeMem p0 p2 modrm rest = .ud := by
  rw [decodeMem, hll]
  rfl

theorem decodeMem_form {i : Instr} {len : Nat} (h : decodeMem p0 p2 modrm rest = .form i len) :
    ∃ (vl : VLen) (m : MemOperand) (n : Nat) (imm8 : Byte) (tail : List Byte), p2.extractLsb' 5 2 = vl.ll ∧
      parseMem p0 modrm rest = some (m, n, imm8 :: tail) ∧ len = 7 + n ∧
      i = vl.memForm (p2.getLsbD 4) (dstNumber p0 modrm) m (maskOfP2 p2) imm8 := by
  cases hvl : vlenOfLL (p2.extractLsb' 5 2) with
  | none => simp [decodeMem, hvl] at h
  | some vl =>
    rcases hp : parseMem p0 modrm rest with _ | ⟨m, n, _ | ⟨imm8, tail⟩⟩
    · simp [decodeMem, hvl, hp] at h
    · simp [decodeMem, hvl, hp] at h
    · have hll := vlenOfLL_eq_some.mp hvl
      rw [decodeMem_of_parse hll hp] at h
      cases h
      exact ⟨vl, m, n, imm8, tail, hll, rfl, rfl, rfl⟩

end Mem

theorem parseDisp_bytes (d : Disp) (mk : Disp → MemOperand) (n : Nat) (tail : List Byte) :
    parseDisp d.mod mk n (d.bytes ++ tail) = some (mk d, n + d.size, tail) := by
  cases d with
  | absent => rfl
  | disp8 d => rfl
  | disp32 d => simp [parseDisp, Disp.mod, Disp.bytes, Disp.size, encodeDisp32, disp32Of_encodeDisp32]

theorem parseDisp32_encodeDisp32 (d : BitVec 32) (mk : BitVec 32 → MemOperand) (n : Nat) (tail : List Byte) :
    parseDisp32 mk n (encodeDisp32 d ++ tail) = some (mk d, n + 4, tail) := by
  simp [parseDisp32, encodeDisp32, disp32Of_encodeDisp32]

theorem parseDisp32_some {mk : BitVec 32 → MemOperand} {k : Nat} {bs : List Byte} {m : MemOperand} {n : Nat} {tail : List Byte}
    (h : parseDisp32 mk k bs = some (m, n, tail)) : ∃ d, m = mk d ∧ n = k + 4 ∧ bs = encodeDisp32 d ++ tail := by
  rcases bs with _ | ⟨b0, _ | ⟨b1, _ | ⟨b2, _ | ⟨b3, rest⟩⟩⟩⟩ <;> cases h
  exact ⟨_, rfl, rfl, by rw [encodeDisp32_disp32Of]; rfl⟩

theorem parseDisp_some {mod : BitVec 2} {mk : Disp → MemOperand} {k : Nat} {bs : List Byte} {m : MemOperand} {n : Nat}
    {tail : List Byte} (hmod : mod ≠ 3) (h : parseDisp mod mk k bs = some (m, n, tail)) :
    ∃ d : Disp, mod = d.mod ∧ m = mk d ∧ n = k + d.size ∧ bs = d.bytes ++ tail := by
  unfold parseDisp at h
  split_ifs at h with h0 h1
  · cases h
    exact ⟨.absent, h0, rfl, rfl, rfl⟩
  · rcases bs with _ | ⟨d, rest⟩ <;> cases h
    exact ⟨.disp8 d, h1, rfl, rfl, rfl⟩
  · have h2 : mod = 2 := by
      revert mod
      decide
    rcases bs with _ | ⟨b0, _ | ⟨b1, _ | ⟨b2, _ | ⟨b3, rest⟩⟩⟩⟩ <;> cases h
    exact ⟨.disp32 _, h2, rfl, rfl, by rw [Disp.bytes, encodeDisp32_disp32Of]; rfl⟩

theorem Disp.mod_eq_zero_iff {d : Disp} : d.mod = 0 ↔ d = .absent := by
  cases d <;> simp [Disp.mod]

theorem Disp.mod_ne_three (d : Disp) : d.mod ≠ 3 := by
  cases d <;> simp [Disp.mod]

theorem sib_wf_iff {b index : BitVec 4} {scale : BitVec 2} {d : Disp} :
    (MemOperand.sib b index scale d).wf = true ↔ ¬ (d.mod = 0 ∧ lowThree b = 5) := by
  simp only [MemOperand.wf, Disp.mod_eq_zero_iff, Bool.not_eq_true', ← Bool.not_eq_true, Bool.and_eq_true, beq_iff_eq]

theorem base_wf_iff {b : BitVec 4} {d : Disp} :
    (MemOperand.base b d).wf = true ↔ lowThree b ≠ 4 ∧ ¬ (d.mod = 0 ∧ lowThree b = 5) := by
  simp only [MemOperand.wf, Disp.mod_eq_zero_iff, Bool.not_eq_true', ← Bool.not_eq_true, Bool.and_eq_true, bne_iff_ne, beq_iff_eq]

/-- What the encoding of an operand adds to P0 and ModRM: a `mod` other than 11b, X, B and rm. -/
theorem MemOperand.encode_eq (dst : BitVec 5) (m : MemOperand) : ∃ (x b : Bool) (mod : BitVec 2) (rm : BitVec 3),
    mod ≠ 3 ∧ (m.encode dst).1 = encodeP0 (dst.getLsbD 3) x b (dst.getLsbD 4) ∧
      (m.encode dst).2.1 = encodeModRM mod dst rm := by
  cases m with
  | base b d => exact ⟨_, _, _, _, d.mod_ne_three, rfl, rfl⟩
  | rip d => exact ⟨_, _, _, _, by decide, rfl, rfl⟩
  | sib b index scale d => exact ⟨_, _, _, _, d.mod_ne_three, rfl, rfl⟩
  | sibNoBase index scale d => exact ⟨_, _, _, _, by decide, rfl, rfl⟩

theorem parseMem_encode (dst : BitVec 5) {m : MemOperand} (tail : List Byte) (hm : m.wf = true) :
    parseMem (m.encode dst).1 (m.encode dst).2.1 ((m.encode dst).2.2 ++ tail) = some (m, m.size, tail) := by
  cases m with
  | base b d =>
    obtain ⟨h4, hmod⟩ := base_wf_iff.mp hm
    simp only [parseMem, MemOperand.encode, MemOperand.size, encodeModRM_fields, if_neg h4, if_neg hmod, baseNumber_encode,
      parseDisp_bytes, Nat.zero_add]
  | rip d => simp [parseMem, MemOperand.encode, MemOperand.size, parseDisp32_encodeDisp32]
  | sib b index scale d =>
    have hmod := sib_wf_iff.mp hm
    simp only [parseMem, MemOperand.encode, MemOperand.size, encodeModRM_fields, encodeSib_fields, List.cons_append, if_pos,
      if_neg hmod, baseNumber_encode, indexNumber_encode, parseDisp_bytes]
  | sibNoBase index scale d =>
    simp only [parseMem, MemOperand.encode, MemOperand.size, encodeModRM_fields, encodeSib_fields, List.cons_append, if_pos,
      and_self, indexNumber_encode, parseDisp32_encodeDisp32]

/-- The operand read from bytes after ModRM, and the bytes that spell it: ModRM and those after it are the operand's encoding, and
so is P0 but for the bits the operand ignores. -/
structure SpellsMem (p0 modrm : Byte) (rest : List Byte) (m : MemOperand) (n : Nat) (tail : List Byte) : Prop where
  wf : m.wf = true
  size : n = m.size
  modrm_eq : modrm = (m.encode (dstNumber p0 modrm)).2.1
  rest_eq : rest = (m.encode (dstNumber p0 modrm)).2.2 ++ tail
  p0_eq : ∀ b, (b = 6 → Machine.ignoresX m = false) → (b = 5 → Machine.ignoresB m = false) →
    p0.getLsbD b = (m.encode (dstNumber p0 modrm)).1.getLsbD b

/-- P0 agrees with an encoding of the same destination at every bit but X and B, and there where the register numbers do. -/
theorem p0_getLsbD_eq {p0 : Byte} (modrm : Byte) {x b : Bool} {n : Nat} (h : p0.extractLsb' 0 4 = 3)
    (hx : n = 6 → x = !p0.getLsbD 6) (hb : n = 5 → b = !p0.getLsbD 5) :
    p0.getLsbD n =
      (encodeP0 ((dstNumber p0 modrm).getLsbD 3) x b ((dstNumber p0 modrm).getLsbD 4)).getLsbD n := by
  obtain ⟨h4, h3, -⟩ := dstNumber_fields p0 modrm
  rw [h4, h3, encodeP0_getLsbD_congr hx hb, encodeP0_of_stored h]

theorem parseMem_some {p0 modrm : Byte} {rest tail : List Byte} {m : MemOperand} {n : Nat} (h0 : p0.extractLsb' 0 4 = 3)
    (hmod : modrm.extractLsb' 6 2 ≠ 3) (h : parseMem p0 modrm rest = some (m, n, tail)) :
    SpellsMem p0 modrm rest m n tail := by
  have hmodrm := encodeModRM_of_stored p0 modrm
  unfold parseMem at h
  dsimp only at h
  split_ifs at h with hrm hrip
  · rcases rest with _ | ⟨sib, rest⟩
    · cases h
    have hsib := encodeSib_of_stored p0 sib
    obtain ⟨hindex, -⟩ := indexNumber_fields p0 sib
    obtain ⟨hbase, hlow⟩ := baseNumber_fields p0 (sib.extractLsb' 0 3)
    dsimp only at h
    split_ifs at h with hnobase
    · obtain ⟨hm0, hsib5⟩ := hnobase
      obtain ⟨d, rfl, rfl, rfl⟩ := parseDisp32_some h
      rw [hm0, hrm] at hmodrm
      rw [hsib5] at hsib
      exact ⟨rfl, rfl, hmodrm.symm, by rw [MemOperand.encode, hsib]; rfl,
        fun b hx hb => p0_getLsbD_eq modrm h0 (fun _ => hindex) fun h => nomatch hb h⟩
    · obtain ⟨d, hd, rfl, rfl, rfl⟩ := parseDisp_some hmod h
      rw [hd, hrm] at hmodrm
      rw [← hlow] at hsib
      refine ⟨?_, rfl, hmodrm.symm, by rw [MemOperand.encode, hsib]; rfl,
        fun b hx hb => p0_getLsbD_eq modrm h0 (fun _ => hindex) fun _ => hbase⟩
      rwa [sib_wf_iff, hlow, ← hd]
  · obtain ⟨hm0, hrm5⟩ := hrip
    obtain ⟨d, rfl, rfl, rfl⟩ := parseDisp32_some h
    rw [hm0, hrm5] at hmodrm
    exact ⟨rfl, rfl, hmodrm.symm, rfl, fun b hx hb =>
      p0_getLsbD_eq modrm h0 (fun h => nomatch hx h) fun h => nomatch hb h⟩
  · obtain ⟨d, hd, rfl, rfl, rfl⟩ := parseDisp_some hmod h
    obtain ⟨hbase, hlow⟩ := baseNumber_fields p0 (modrm.extractLsb' 0 3)
    rw [hd, ← hlow] at hmodrm
    refine ⟨?_, Nat.zero_add _, hmodrm.symm, rfl, fun b hx hb =>
      p0_getLsbD_eq modrm h0 (fun h => nomatch hx h) fun _ => hbase⟩
    exact base_wf_iff.mpr ⟨by rwa [hlow], by rwa [hlow, ← hd]⟩

/-! ### From the instruction to its bytes and back (R50, R69) -/

theorem decode_of_legalFields {sw : Bool} {p0 p2 modrm : Byte} {rest : List Byte} (h0 : p0.extractLsb' 0 4 = 3)
    (hv : p2.getLsbD 3 = true) (hk : (maskOfP2 p2).wf = true) :
    decode sw (0x62 :: p0 :: encodeP1 :: p2 :: 0x09 :: modrm :: rest) =
      if modrm.extractLsb' 6 2 = 3 then decodeReg sw p0 p2 modrm rest else decodeMem p0 p2 modrm rest :=
  decodeEvex_of_legalFields ⟨h0, by decide, by decide, rfl⟩ ⟨by decide, by decide, hv, hk⟩

/-- The bytes of a register source with any L'L field: `encodeReg` where a vector length names the field. -/
def evexReg (ll : BitVec 2) (b : Bool) (dst src : BitVec 5) (k : Mask) (imm8 : BitVec 8) : List Byte :=
  [0x62, encodeP0 (dst.getLsbD 3) (src.getLsbD 4) (src.getLsbD 3) (dst.getLsbD 4), encodeP1, evexP2 ll b k, 0x09,
    encodeModRM 3 dst (src.extractLsb' 0 3), imm8]

theorem encodeReg_eq (vl : VLen) (b : Bool) (dst src : BitVec 5) (k : Mask) (imm8 : BitVec 8) :
    encodeReg vl b dst src k imm8 = evexReg vl.ll b dst src k imm8 := rfl

section Encode

variable {sw : Bool} {k : Mask} (hk : k.wf = true) (dst src : BitVec 5) (imm8 : BitVec 8) (rest : List Byte)
include hk

theorem decode_evexReg (ll : BitVec 2) (b : Bool) : decode sw (evexReg ll b dst src k imm8 ++ rest) =
    decodeReg sw (encodeP0 (dst.getLsbD 3) (src.getLsbD 4) (src.getLsbD 3) (dst.getLsbD 4)) (evexP2 ll b k)
      (encodeModRM 3 dst (src.extractLsb' 0 3)) (imm8 :: rest) := by
  simp only [evexReg, List.cons_append, List.nil_append]
  rw [decode_of_legalFields (by simp only [encodeP0_fields]) (by simp only [evexP2_fields]) (by simpa only [evexP2_fields]),
    if_pos (by simp only [encodeModRM_fields])]

theorem decode_encodeReg (vl : VLen) :
    decode sw (encodeReg vl false dst src k imm8 ++ rest) = .form (vl.regInstr dst src k imm8) 7 := by
  rw [encodeReg_eq, decode_evexReg hk, decodeReg_of_vlen (vl := vl) (by simp only [evexP2_fields]) (by simp only [evexP2_fields])]
  simp only [dstNumber_encode, srcNumber_encode, evexP2_fields]

theorem decode_evexReg_sae {ll : BitVec 2} (hll : ll = 2 ∨ sw = true) :
    decode sw (evexReg ll true dst src k imm8 ++ rest) = .form (.vrndscalepdZmmSae dst src k imm8) 7 := by
  rw [decode_evexReg hk, decodeReg_of_sae (by simp only [evexP2_fields]) (by simpa only [evexP2_fields])]
  simp only [dstNumber_encode, srcNumber_encode, evexP2_fields]

theorem decode_encodeMem (vl : VLen) (b : Bool) {m : MemOperand} (hm : m.wf = true) :
    decode sw (encodeMem vl b dst m k imm8 ++ rest) = .form (vl.memForm b dst m k imm8) (7 + m.size) := by
  obtain ⟨x, bb, mod, rm, hmod, hp0, hmodrm⟩ := m.encode_eq dst
  have hparse := parseMem_encode dst (imm8 :: rest) hm
  simp only [encodeMem, encodeP2_eq, List.cons_append, List.nil_append, List.append_assoc]
  rw [hp0, hmodrm] at hparse ⊢
  rw [decode_of_legalFields (by simp only [encodeP0_fields]) (by simp only [evexP2_fields]) (by simpa only [evexP2_fields]),
    if_neg (by simpa only [encodeModRM_fields]), decodeMem_of_parse (vl := vl) (by simp only [evexP2_fields]) hparse]
  simp only [dstNumber_encode, evexP2_fields]

end Encode

/-- Settles O2: each form's bytes have legal fields, and each field gives back what was put into it. -/
theorem decodeOfEncodeIsTheInstruction : Obligations.DecodeOfEncodeIsTheInstruction := by
  intro sw i rest hwf
  induction i using Instr.form_cases with
  | reg vl dst src k imm8 =>
    rw [encode_regInstr, regInstr_length]
    exact decode_encodeReg (by rwa [regInstr_wf] at hwf) dst src imm8 rest vl
  | mem vl b dst m k imm8 =>
    rw [memForm_wf, Bool.and_eq_true] at hwf
    rw [encode_memForm, memForm_length]
    exact decode_encodeMem hwf.1 dst imm8 rest vl b hwf.2
  | sae dst src k imm8 => exact decode_evexReg_sae hwf dst src imm8 rest (.inl rfl)

/-- Settles O9: the bytes are a register source with EVEX.b = 1, at whatever L'L. -/
theorem saeSwitchIgnoresTheLengthField : Obligations.SaeSwitchIgnoresTheLengthField :=
  fun dst src _ imm8 _ rest hk => decode_evexReg_sae hk dst src imm8 rest (.inr rfl)

/-- At every byte of `enc`, `bs` holds the same bits but for those ignored. -/
def AgreesBut (ignored : Nat → Nat → Bool) (bs enc : List Byte) : Prop :=
  ∀ n b, n < enc.length → ignored n b = false → (bs.getD n 0).getLsbD b = (enc.getD n 0).getLsbD b

/-- It is P0 and P2 alone that hold ignored bits. -/
theorem agreesBut_of_evex {ignored : Nat → Nat → Bool} {p0 p0' p2 p2' : Byte} {body : List Byte} (tail : List Byte)
    (h1 : ∀ b, ignored 1 b = false → p0.getLsbD b = p0'.getLsbD b)
    (h3 : ∀ b, ignored 3 b = false → p2.getLsbD b = p2'.getLsbD b) :
    AgreesBut ignored (0x62 :: p0 :: encodeP1 :: p2 :: (body ++ tail)) (0x62 :: p0' :: encodeP1 :: p2' :: body)
  | 0, _, _, _ => rfl
  | 1, b, _, hb => h1 b hb
  | 2, _, _, _ => rfl
  | 3, b, _, hb => h3 b hb
  | n + 4, _, hn, _ => by
    simp only [List.getD_cons_succ]
    rw [List.getD_append _ _ _ _ (by simpa using hn)]

theorem ignoredBit_p0 {sw : Bool} {i : Instr} {m : MemOperand} {b : Nat} (hm : Machine.memOf i = some m)
    (h : Machine.ignoredBit sw i 1 b = false) :
    (b = 6 → Machine.ignoresX m = false) ∧ (b = 5 → Machine.ignoresB m = false) := by
  simp only [Machine.ignoredBit, hm, Option.any_some] at h
  constructor <;> rintro rfl <;> simpa using h

/-- What `decode` accepts: a well-formed instruction, its length, and its encoding but for the bits it ignores. -/
structure SpellsInstr (sw : Bool) (bs : List Byte) (i : Instr) (len : Nat) : Prop where
  wf : i.wf = true
  length : len = i.length
  bytes : AgreesBut (Machine.ignoredBit sw i) bs (encode i)

section Decode

variable {sw : Bool} {p0 p2 modrm : Byte} {rest : List Byte} {i : Instr} {len : Nat} (h0 : p0.extractLsb' 0 4 = 3)
  (hv : p2.getLsbD 3 = true) (hk : (maskOfP2 p2).wf = true)
include h0 hv hk

theorem decodeReg_spells (hmod : modrm.extractLsb' 6 2 = 3) (h : decodeReg sw p0 p2 modrm rest = .form i len) :
    SpellsInstr sw (0x62 :: p0 :: encodeP1 :: p2 :: 0x09 :: modrm :: rest) i len := by
  obtain ⟨rfl, imm8, tail, rfl, hform⟩ := decodeReg_form h
  obtain ⟨hx, hb, hrm⟩ := srcNumber_fields p0 modrm
  have hp0 (b : Nat) := p0_getLsbD_eq modrm (n := b) h0 (fun _ => hx) fun _ => hb
  have hp2 := evexP2_of_stored hv
  have hmodrm : encodeModRM 3 (dstNumber p0 modrm) ((srcNumber p0 modrm).extractLsb' 0 3) = modrm := by
    rw [hrm, ← hmod]
    exact encodeModRM_of_stored p0 modrm
  rcases hform with ⟨vl, hb, hll, rfl⟩ | ⟨hb, hll, rfl⟩
  · refine ⟨by rwa [regInstr_wf], (regInstr_length ..).symm, ?_⟩
    rw [encode_regInstr, encodeReg_eq, evexReg, hmodrm, ← hll, ← hb, hp2]
    exact agreesBut_of_evex (body := [0x09, modrm, imm8]) tail (fun b _ => hp0 b) fun _ _ => rfl
  · refine ⟨hk, rfl, ?_⟩
    rw [encode, encodeReg_eq, evexReg, hmodrm, ← hb]
    refine agreesBut_of_evex (body := [0x09, modrm, imm8]) tail (fun b _ => hp0 b) fun b hig => ?_
    conv_lhs => rw [← hp2]
    rcases hll with hll | rfl
    · rw [hll]
      rfl
    · refine evexP2_getLsbD_congr ?_
      simpa [Machine.ignoredBit, Machine.memOf, Machine.isSae] using hig

theorem decodeMem_spells (hmod : modrm.extractLsb' 6 2 ≠ 3) (h : decodeMem p0 p2 modrm rest = .form i len) :
    SpellsInstr sw (0x62 :: p0 :: encodeP1 :: p2 :: 0x09 :: modrm :: rest) i len := by
  obtain ⟨vl, m, n, imm8, tail, hll, hp, rfl, rfl⟩ := decodeMem_form h
  obtain ⟨hm, rfl, hmodrm, rfl, hp0⟩ := parseMem_some h0 hmod hp
  refine ⟨by rw [memForm_wf, hk, hm]; rfl, (memForm_length ..).symm, ?_⟩
  rw [encode_memForm, encodeMem, encodeP2_eq, ← hmodrm, ← hll, evexP2_of_stored hv]
  rw [← List.singleton_append (x := imm8), ← List.append_assoc]
  exact agreesBut_of_evex (body := 0x09 :: modrm :: ((m.encode (dstNumber p0 modrm)).2.2 ++ [imm8])) tail
    (fun b hig => (ignoredBit_p0 (memOf_memForm ..) hig).elim (hp0 b)) fun _ _ => rfl

end Decode

theorem decode_spells {sw : Bool} {bs : List Byte} {i : Instr} {len : Nat} (h : decode sw bs = .form i len) :
    SpellsInstr sw bs i len := by
  obtain ⟨p0, p1, p2, op, rest, rfl, hevex⟩ := decode_form_evex h
  obtain ⟨⟨h0, hw, hpp, rfl⟩, ⟨h2, hvvvv, hv, hk⟩, modrm, tail, rfl, hsource⟩ := decodeEvex_form hevex
  obtain rfl := eq_encodeP1 hw hvvvv h2 hpp
  split_ifs at hsource with hmod
  · exact decodeReg_spells h0 hv hk hmod hsource
  · exact decodeMem_spells h0 hv hk hmod hsource

/-- What decodes to an instruction is at least as long as the instruction. -/
theorem decode_length_le {sw : Bool} {bs : List Byte} {i : Instr} {len : Nat} (h : decode sw bs = .form i len) :
    len ≤ bs.length := by
  obtain ⟨used, more, rfl, hlen, -⟩ := decode_exact h
  rw [List.length_append]
  omega

/-- Settles O3: the bytes spell a well-formed instruction, whose length is that of its encoding. -/
theorem decodedFormsAreWellFormed : Obligations.DecodedFormsAreWellFormed := by
  intro sw bytes i len h
  obtain ⟨hwf, hlen, -⟩ := decode_spells h
  obtain ⟨-, h7, h12⟩ := encode_length i
  rw [← hlen] at h7 h12
  exact ⟨hwf, hlen, h7, h12, decode_length_le h⟩

/-- Settles O8: the bytes spell the instruction decoded. -/
theorem decodedBytesAreTheEncoding : Obligations.DecodedBytesAreTheEncoding := by
  intro sw bytes i len h
  obtain ⟨-, hlen, hbytes⟩ := decode_spells h
  obtain ⟨henc, -, -⟩ := encode_length i
  rw [← henc] at hlen
  exact ⟨hlen, decode_length_le h, fun n b hn => hbytes n b (hlen ▸ hn)⟩

/-! ### Bytes that are not decoded (R58, R67 to R69) -/

/-- Settles O7: a first byte of no kind, one of the #UD kind before another than 62h, and a field that is another instruction's. -/
theorem otherBytesAreNotThisInstruction : Obligations.OtherBytesAreNotThisInstruction := by
  intro sw rest
  refine ⟨fun b0 h62 hmem hrex => ?_, fun b0 b1 hb0 hb1 => ?_, fun p0 p1 p2 op h => ?_⟩
  · simp only [List.mem_cons, List.not_mem_nil, or_false, not_or] at hmem
    refine decode_of_otherByte (fun hr => ?_) (fun hu => ?_) h62
    · simp only [isRefusedPrefix_iff, List.mem_cons, List.not_mem_nil, or_false] at hr
      tauto
    · rw [isUdPrefix_iff] at hu
      tauto
  · rw [decode_of_udPrefix (isUdPrefix_iff.mpr hb0), if_neg hb1]
  · rw [decode_evex]
    refine decodeEvex_of_not_isVrndscalepd fun ⟨hlow, hw, hpp, hop⟩ => ?_
    obtain ⟨hmap, hres⟩ := p0_low_iff.mp hlow
    simp [hmap, hres, hpp, hop, hw, -BitVec.getLsbD_eq_getElem] at h

/-- Settles O6: row 1 is another instruction, rows 2 and 5 are illegal fields of P1 and P2, rows 6 and 7 of the source. -/
theorem reservedFieldsAreNotDecoded : Obligations.ReservedFieldsAreNotDecoded := by
  intro sw p0 p1 p2 modrm rest hmap hw hpp
  simp only [decode_evex]
  refine ⟨fun hres => ?_, fun hres h2 => ?_, fun hres hp1 hv =>
    ⟨fun hz haaa => ?_, fun hk hb hll hmod hsw => ?_, fun hk hll hsrc => ?_⟩⟩
  · exact decodeEvex_of_not_isVrndscalepd fun ⟨hlow, _⟩ => hres (p0_low_iff.mp hlow).2
  · exact decodeEvex_of_not_legalFields ⟨p0_low_iff.mpr ⟨hmap, hres⟩, hw, hpp, rfl⟩ fun ⟨h, _⟩ =>
      Bool.noConfusion (h2.symm.trans h)
  · exact decodeEvex_of_not_legalFields ⟨p0_low_iff.mpr ⟨hmap, hres⟩, hw, hpp, rfl⟩
      fun ⟨_, _, _, hk⟩ => maskOfP2_wf_iff.mp hk ⟨hz, haaa⟩
  all_goals
    subst hp1
    have hsource := decode_of_legalFields (sw := sw) (modrm := modrm) (rest := rest) (p0_low_iff.mpr ⟨hmap, hres⟩) hv
      (maskOfP2_wf_iff.mpr hk)
    refine hsource.trans ?_
  · subst hsw
    rw [if_pos hmod, decodeReg_of_sae_refused hb hll]
  · split_ifs with hmod
    · exact decodeReg_of_no_vlen (hsrc.resolve_right (not_not.mpr hmod)) hll
    · exact decodeMem_of_no_vlen hll

end Sys2Proof

namespace Sys2Proof.Machine

/-! ### The step on bytes that are not decoded (R58, R67) -/

/-- The code at `pc` settles the decoding, whatever stands after it. -/
theorem decode_fetch_of_codeAt {s : State} {bs : List Byte} (hc : CodeAt s.pc bs s) (hn : bs.length ≤ 15)
    (hb : s.pc.toNat + bs.length ≤ 2 ^ 64) (h : decode s.saeAnyLL bs ≠ .short) :
    decode s.saeAnyLL s.fetch.1 = decode s.saeAnyLL bs := by
  obtain ⟨more, stop, hfetch⟩ := fetch_of_codeAt hc hn hb
  rw [hfetch]
  exact decode_append more h

theorem step_of_decode_ud {s : State} (hm : s.mode = .bits64) (h : decode s.saeAnyLL s.fetch.1 = .ud) :
    step s = .fault (.invalidOpcode s) := by
  rw [step, if_neg (not_not.mpr hm), h]
  rfl

theorem step_of_decode_refusedLegacyPrefix {s : State} (hm : s.mode = .bits64)
    (h : decode s.saeAnyLL s.fetch.1 = .refusedLegacyPrefix) : step s = .refused .legacyPrefix := by
  rw [step, if_neg (not_not.mpr hm), h]

/-- Code that decodes to #UD raises it. -/
theorem step_of_codeAt_ud {s : State} {bs : List Byte} (hm : s.mode = .bits64) (hc : CodeAt s.pc bs s)
    (hn : bs.length ≤ 15) (hb : s.pc.toNat + bs.length ≤ 2 ^ 64) (h : decode s.saeAnyLL bs = .ud) :
    step s = .fault (.invalidOpcode s) :=
  step_of_decode_ud hm ((decode_fetch_of_codeAt hc hn hb (by simp [h])).trans h)

/-- Settles O5: vvvv and V' are legal at one value each, and the other fields say that it is this instruction. -/
theorem reservedVvvvOrVPrimeRaisesInvalidOpcode : Obligations.ReservedVvvvOrVPrimeRaisesInvalidOpcode := by
  intro s p0 p1 p2 hm hc hb h0 hw hpp hill
  refine step_of_codeAt_ud hm hc (by simp) hb ?_
  rw [decode_evex]
  refine decodeEvex_of_not_legalFields ⟨h0, hw, hpp, rfl⟩ fun hlegal => ?_
  obtain ⟨-, hvvvv, hv, -⟩ := hlegal
  exact hill.elim (fun h => h hvvvv) fun h => Bool.noConfusion (h.symm.trans hv)

/-- Settles O10: the answer to the first byte, and an accepted instruction has passed it. -/
theorem bytesBeforeTheEvexPrefix : Obligations.BytesBeforeTheEvexPrefix := by
  refine ⟨fun s b hm hc hb hud => ?_, fun s b hm hc href => ?_, fun sw bytes i len h => ?_⟩
  · refine step_of_codeAt_ud hm hc (by simp) hb ?_
    rw [decode_of_udPrefix (isUdPrefix_iff.mpr hud), if_pos rfl]
  · have hdecode := decode_of_refusedPrefix (sw := s.saeAnyLL) (rest := []) (isRefusedPrefix_iff.mpr href)
    have hfetch := decode_fetch_of_codeAt hc (by simp) s.pc.isLt (by simp [hdecode])
    exact step_of_decode_refusedLegacyPrefix hm (hfetch.trans hdecode)
  · obtain ⟨p0, p1, p2, op, rest, rfl, -⟩ := decode_form_evex h
    rfl

end Sys2Proof.Machine
end

section
/-! PROOFS of the statements of 40_vrndscalepd.md about numbers: the integer that each direction names (R83). -/

namespace Sys2Proof.Machine

/-! ### The integer of each direction (R83) -/

/-- `n` is the integer nearest to `y`, the even one of two equally near (R83, 00b). -/
def IsNearestEven (y : ℚ) (n : ℤ) : Prop := |y - n| < 1 / 2 ∨ |y - n| = 1 / 2 ∧ Even n

theorem IsNearestEven.abs_sub_le_half {y : ℚ} {n : ℤ} (h : IsNearestEven y n) : |y - n| ≤ 1 / 2 := h.elim le_of_lt fun h => h.1.le

theorem IsNearestEven.even {y : ℚ} {n : ℤ} (h : IsNearestEven y n) (htie : |y - n| = 1 / 2) : Even n :=
  h.elim (fun h => absurd htie h.ne) And.right

/-- Two nearest integers that differ are neighbours, both a half away, and then not both even. -/
theorem IsNearestEven.le {y : ℚ} {m n : ℤ} (hm : IsNearestEven y m) (hn : IsNearestEven y n) : m ≤ n := by
  by_contra! hlt
  have hgap : (n : ℚ) + 1 ≤ m := by exact_mod_cast hlt
  have hym := hm.abs_sub_le_half
  have hyn := hn.abs_sub_le_half
  rw [abs_le] at hym hyn
  have heq : (m : ℚ) = n + 1 := by linarith
  have hmEven : Even m := hm.even (by rw [abs_of_nonpos] <;> linarith)
  have hnEven : Even n := hn.even (by rw [abs_of_nonneg] <;> linarith)
  have hnext : m = n + 1 := by exact_mod_cast heq
  rw [Int.even_iff] at hmEven hnEven
  omega

theorem isNearestEven_nearestEven (y : ℚ) : IsNearestEven y (nearestEven y) := by
  have hle := Int.floor_le y
  have hlt := Int.lt_floor_add_one y
  simp only [nearestEven, IsNearestEven, Int.even_iff]
  split_ifs with hlow hhigh heven <;> push_cast
  · left; rw [abs_lt]; constructor <;> linarith
  · left; rw [abs_lt]; constructor <;> linarith
  · right; exact ⟨by rw [abs_of_nonneg] <;> linarith, heven⟩
  · right; exact ⟨by rw [abs_of_nonpos] <;> linarith, by omega⟩

theorem nearestEven_eq {y : ℚ} {n : ℤ} (h : IsNearestEven y n) : nearestEven y = n :=
  le_antisymm ((isNearestEven_nearestEven y).le h) (h.le (isNearestEven_nearestEven y))

theorem nearestEven_neg (y : ℚ) : nearestEven (-y) = -nearestEven y := by
  refine nearestEven_eq ?_
  rw [IsNearestEven, even_neg, Int.cast_neg, neg_sub_neg, abs_sub_comm]
  exact isNearestEven_nearestEven y

theorem roundInt_nearest (y : ℚ) : roundInt 0 y = nearestEven y := rfl
theorem roundInt_down (y : ℚ) : roundInt 1 y = ⌊y⌋ := rfl
theorem roundInt_up (y : ℚ) : roundInt 2 y = ⌈y⌉ := rfl
theorem roundInt_truncate (y : ℚ) : roundInt 3 y = if 0 ≤ y then ⌊y⌋ else ⌈y⌉ := rfl

/-- What holds at each of the four directions holds at all. -/
theorem direction_cases {motive : BitVec 2 → Prop} (nearest : motive 0) (down : motive 1) (up : motive 2)
    (truncate : motive 3) (rd : BitVec 2) : motive rd := by
  have : rd = 0 ∨ rd = 1 ∨ rd = 2 ∨ rd = 3 := by revert rd; decide
  rcases this with rfl | rfl | rfl | rfl <;> assumption

/-- An integer rounds to itself. -/
theorem roundInt_intCast (rd : BitVec 2) (n : ℤ) : roundInt rd n = n := by
  induction rd using direction_cases with
  | nearest => exact nearestEven_eq (.inl (by simp))
  | down => exact Int.floor_intCast n
  | up => exact Int.ceil_intCast n
  | truncate => rw [roundInt_truncate, Int.floor_intCast, Int.ceil_intCast, ite_self]

/-! ### The rounded quotient (R83) -/

section Quotient
variable (neg : Bool) (m sh : ℕ)

theorem div_two_pow_eq : (m : ℚ) / 2 ^ sh = (m / 2 ^ sh : ℕ) + ((m % 2 ^ sh : ℕ) : ℚ) / 2 ^ sh := by
  have h : ((2 ^ sh * (m / 2 ^ sh) + m % 2 ^ sh : ℕ) : ℚ) = m := by rw [Nat.div_add_mod]
  push_cast at h ⊢
  field_simp
  linarith

theorem floor_div_two_pow : ⌊(m : ℚ) / 2 ^ sh⌋ = (m / 2 ^ sh : ℕ) := by
  simpa using Rat.floor_natCast_div_natCast m (2 ^ sh)

/-- Where the remainder is not zero the quotient is no integer, and one more is the least above it. -/
theorem ceil_div_two_pow :
    ⌈(m : ℚ) / 2 ^ sh⌉ = ((if m % 2 ^ sh = 0 then m / 2 ^ sh else m / 2 ^ sh + 1 : ℕ) : ℤ) := by
  have hlt : ((m % 2 ^ sh : ℕ) : ℚ) / 2 ^ sh < 1 := by
    rw [div_lt_one (by positivity)]
    exact_mod_cast Nat.mod_lt m (by positivity)
  rw [Int.ceil_eq_iff, div_two_pow_eq]
  generalize m / 2 ^ sh = q, m % 2 ^ sh = r at hlt ⊢
  split_ifs with h
  · simp [h]
  · have hpos : (0 : ℚ) < (r : ℚ) / 2 ^ sh := by
      have : 0 < r := Nat.pos_of_ne_zero h
      positivity
    push_cast
    constructor <;> linarith

theorem roundMagnitude_nearest : roundMagnitude 0 neg m sh =
    if 2 ^ sh < 2 * (m % 2 ^ sh) ∨ 2 * (m % 2 ^ sh) = 2 ^ sh ∧ m / 2 ^ sh % 2 = 1 then m / 2 ^ sh + 1 else m / 2 ^ sh := by
  simp [roundMagnitude]

/-- The magnitude rounded to nearest goes up past a half, and at a half from an odd quotient. -/
theorem isNearestEven_roundMagnitude : IsNearestEven ((m : ℚ) / 2 ^ sh) (roundMagnitude 0 neg m sh) := by
  have hD : (0 : ℚ) < 2 ^ sh := by positivity
  have hr : ((m % 2 ^ sh : ℕ) : ℚ) < 2 ^ sh := by exact_mod_cast Nat.mod_lt m (by positivity)
  rw [roundMagnitude_nearest, div_two_pow_eq, IsNearestEven, Int.even_coe_nat, Nat.even_iff]
  generalize m / 2 ^ sh = q, m % 2 ^ sh = r at hr ⊢
  have h0 : 0 ≤ (r : ℚ) / 2 ^ sh := by positivity
  have h1 : (r : ℚ) / 2 ^ sh < 1 := (div_lt_one hD).mpr hr
  rcases lt_trichotomy (2 * r) (2 ^ sh) with h | h | h
  · have hlow : (r : ℚ) / 2 ^ sh < 1 / 2 := by
      rw [div_lt_div_iff₀ hD two_pos]
      exact_mod_cast (by omega : r * 2 < 1 * 2 ^ sh)
    rw [if_neg (by omega), Int.cast_natCast, add_sub_cancel_left, abs_of_nonneg h0]
    exact .inl hlow
  · have htie : (r : ℚ) / 2 ^ sh = 1 / 2 := by
      rw [div_eq_div_iff hD.ne' two_ne_zero]
      exact_mod_cast (by omega : r * 2 = 1 * 2 ^ sh)
    rw [htie]
    refine .inr ?_
    split_ifs with hodd
    · refine ⟨?_, by omega⟩
      push_cast
      rw [abs_of_nonpos] <;> linarith
    · refine ⟨?_, by omega⟩
      push_cast
      rw [abs_of_nonneg] <;> linarith
  · have hhigh : 1 / 2 < (r : ℚ) / 2 ^ sh := by
      rw [div_lt_div_iff₀ two_pos hD]
      exact_mod_cast (by omega : 1 * 2 ^ sh < r * 2)
    rw [if_pos (.inl h)]
    left
    push_cast
    rw [abs_of_nonpos] <;> linarith

theorem roundMagnitude_down : (roundMagnitude 1 neg m sh : ℤ) =
    if neg then ⌈(m : ℚ) / 2 ^ sh⌉ else ⌊(m : ℚ) / 2 ^ sh⌋ := by
  rw [ceil_div_two_pow, floor_div_two_pow]
  cases neg <;> simp [roundMagnitude, ite_not]

theorem roundMagnitude_up : (roundMagnitude 2 neg m sh : ℤ) =
    if neg then ⌊(m : ℚ) / 2 ^ sh⌋ else ⌈(m : ℚ) / 2 ^ sh⌉ := by
  rw [ceil_div_two_pow, floor_div_two_pow]
  cases neg <;> simp [roundMagnitude, ite_not]

theorem roundMagnitude_truncate : (roundMagnitude 3 neg m sh : ℤ) = ⌊(m : ℚ) / 2 ^ sh⌋ := by
  rw [floor_div_two_pow]
  rfl

end Quotient

/-- The factor of a sign bit. -/
def signQ (neg : Bool) : ℚ := if neg then -1 else 1

@[simp] theorem signQ_false : signQ false = 1 := rfl
@[simp] theorem signQ_true : signQ true = -1 := rfl

/-- Down for a negative number is up for its magnitude, and the other way round; toward zero is down for the magnitude. -/
theorem roundInt_signQ_mul (rd : BitVec 2) (neg : Bool) (m sh : ℕ) :
    roundInt rd (signQ neg * (m / 2 ^ sh)) = (if neg then -1 else 1) * (roundMagnitude rd neg m sh : ℤ) := by
  induction rd using direction_cases with
  | nearest =>
    have h := nearestEven_eq (isNearestEven_roundMagnitude neg m sh)
    rw [roundInt_nearest, ← h]
    cases neg <;> simp [nearestEven_neg]
  | down =>
    rw [roundInt_down, roundMagnitude_down]
    cases neg <;> simp [Int.floor_neg]
  | up =>
    rw [roundInt_up, roundMagnitude_up]
    cases neg <;> simp [Int.ceil_neg]
  | truncate =>
    have h0 : (0 : ℚ) ≤ m / 2 ^ sh := by positivity
    rw [roundInt_truncate, roundMagnitude_truncate]
    cases neg with
    | false => simp [h0]
    | true => 
      obtain h0 | h0 := h0.eq_or_lt
      · simp [← h0]
      · simp [h0, Int.ceil_neg]

/-- Settles O15: the magnitude with its sign is `roundInt`, which is `⌊y⌋`, `⌈y⌉` or the nearest even integer. -/
theorem roundedMagnitudeIsTheRuleInteger : Obligations.RoundedMagnitudeIsTheRuleInteger := by
  intro neg m sh y n
  have hround : ∀ rd, roundInt rd y = n rd := fun rd => roundInt_signQ_mul rd neg m sh
  have hnearest : IsNearestEven y (n 0) := hround 0 ▸ isNearestEven_nearestEven y
  have hdown : ⌊y⌋ = n 1 := hround 1
  have hup : ⌈y⌉ = n 2 := hround 2
  have htruncate : (if 0 ≤ y then ⌊y⌋ else ⌈y⌉) = n 3 := hround 3
  refine ⟨⟨hnearest.abs_sub_le_half, hnearest.even⟩, Int.floor_eq_iff.mp hdown, (Int.ceil_eq_iff.mp hup).symm, fun h => ?_,
    fun h => ?_, hround⟩
  · rw [if_pos h] at htruncate
    exact Int.floor_eq_iff.mp htruncate
  · rw [if_neg h.not_ge] at htruncate
    exact (Int.ceil_eq_iff.mp htruncate).symm

end Sys2Proof.Machine
end

section
/-! PROOFS of the statements of 40_vrndscalepd.md about the classes of elements: the format (R80), DAZ (R82), and what special elements
become (R85, R88). -/

namespace Sys2Proof.Machine

/-! ### The fields of a pattern (R80) -/

@[simp] theorem signOf_packed (s : Bool) (e f : ℕ) : signOf (packed s e f) = s := by
  rw [signOf, packed, BitVec.getLsbD_append (n := 1) (m := 63)]
  simp

@[simp] theorem expOf_packed (s : Bool) (e f : ℕ) : expOf (packed s e f) = BitVec.ofNat 11 e := by
  simp (disch := decide) only [expOf, packed, BitVec.extractLsb'_append_eq_of_add_le]
  exact BitVec.extractLsb'_append_eq_left

@[simp] theorem fracOf_packed (s : Bool) (e f : ℕ) : fracOf (packed s e f) = BitVec.ofNat 52 f := by
  simp (disch := decide) only [fracOf, packed, BitVec.extractLsb'_append_eq_of_add_le]
  exact BitVec.extractLsb'_eq_self

theorem zeroOf_eq_packed (s : Bool) : zeroOf s = packed s 0 0 := by cases s <;> decide

@[simp] theorem signOf_zeroOf (s : Bool) : signOf (zeroOf s) = s := by rw [zeroOf_eq_packed, signOf_packed]

@[simp] theorem isZero_zeroOf (s : Bool) : isZero (zeroOf s) = true := by simp [isZero, zeroOf_eq_packed]

theorem expOf_or (a b : Word64) : expOf (a ||| b) = expOf a ||| expOf b := BitVec.extractLsb'_or

theorem getLsbD_fracOf (b : Word64) {n : ℕ} (h : n < 52) : (fracOf b).getLsbD n = b.getLsbD n := by
  simp [fracOf, h]

/-! ### The classes of elements (R80) -/

theorem isFinite_of_isZero {b : Word64} (h : isZero b = true) : isFinite b = true := by simp_all [isZero, isFinite]

theorem isFinite_eq_false_of_isSNaN {b : Word64} (h : isSNaN b = true) : isFinite b = false := by
  simp_all [isSNaN, isFinite]

theorem isFinite_eq_false_of_isQNaN {b : Word64} (h : isQNaN b = true) : isFinite b = false := by
  simp_all [isQNaN, isFinite]

theorem isFinite_eq_false_of_isInfinity {b : Word64} (h : isInfinity b = true) : isFinite b = false := by
  simp_all [isInfinity, isFinite]

theorem isDenormal_eq_false_of_isZero {b : Word64} (h : isZero b = true) : isDenormal b = false := by
  simp_all [isDenormal, isZero]

theorem isSNaN_eq_false_of_isQNaN {b : Word64} (h : isQNaN b = true) : isSNaN b = false := by
  simp_all [isQNaN, isSNaN]

theorem isSNaN_eq_false_of_isInfinity {b : Word64} (h : isInfinity b = true) : isSNaN b = false := by
  simp_all [isInfinity, isSNaN]

theorem isFinite_of_isNormal {b : Word64} (h : isNormal b = true) : isFinite b = true := by
  simp_all [isNormal, isFinite]

theorem isDenormal_eq_false_of_isNormal {b : Word64} (h : isNormal b = true) : isDenormal b = false := by
  simp_all [isNormal, isDenormal]

theorem isZero_eq_false_of_isNormal {b : Word64} (h : isNormal b = true) : isZero b = false := by
  simp_all [isNormal, isZero]

/-- An element is a NaN of one of the two kinds, an infinity, or finite. -/
theorem isFinite_of_no_other {b : Word64} (hs : isSNaN b = false) (hq : isQNaN b = false) (hi : isInfinity b = false) :
    isFinite b = true := by
  simp only [isFinite, isSNaN, isQNaN, isInfinity] at *
  by_cases hexp : expOf b = 2047 <;> simp_all

/-! ### DAZ (R82) -/

theorem afterDaz_of_not_isDenormal {b : Word64} (h : isDenormal b = false) (mxcsr : BitVec 32) : afterDaz b mxcsr = b := by
  simp [afterDaz, h]

theorem afterDaz_of_isDenormal {b : Word64} {mxcsr : BitVec 32} (hdaz : mxcsrDAZ mxcsr = true) (h : isDenormal b = true) :
    afterDaz b mxcsr = zeroOf (signOf b) := by
  simp [afterDaz, hdaz, h]

@[simp] theorem signOf_afterDaz (b : Word64) (mxcsr : BitVec 32) : signOf (afterDaz b mxcsr) = signOf b := by
  unfold afterDaz
  split
  · exact signOf_zeroOf _
  · rfl

theorem isFinite_afterDaz {b : Word64} (h : isFinite b = true) (mxcsr : BitVec 32) : isFinite (afterDaz b mxcsr) = true := by
  unfold afterDaz
  split
  · exact isFinite_of_isZero (isZero_zeroOf _)
  · exact h

/-! ### What `RoundToIntegerDP` does with each class (R85, R90) -/

/-- The element that a signalling NaN becomes. -/
def quieted (b : Word64) : Word64 := b ||| 0x0008000000000000

theorem quieted_getLsbD (b : Word64) (n : ℕ) : (quieted b).getLsbD n = (b.getLsbD n || decide (n = 51)) := by
  have : (0x0008000000000000 : Word64) = BitVec.twoPow 64 51 := by decide
  rw [quieted, BitVec.getLsbD_or, this, BitVec.getLsbD_twoPow]
  simp [eq_comm]

theorem isQNaN_quieted {b : Word64} (h : isSNaN b = true) : isQNaN (quieted b) = true := by
  have hexp : expOf b = 2047 := by simp_all [isSNaN]
  have hquiet : expOf (0x0008000000000000 : Word64) = 0 := by decide
  have hbit : (fracOf (quieted b)).getLsbD 51 = true := by
    rw [getLsbD_fracOf _ (by decide), quieted_getLsbD]
    simp
  rw [isQNaN, hbit, quieted, expOf_or, hexp, hquiet]
  decide

/-- A signalling NaN is quieted; another NaN, an infinity and a zero come back; every other element is finite and is rounded. -/
theorem roundElement_cases (src : Word64) (imm8 : BitVec 8) (mxcsr : BitVec 32) :
    (isSNaN src = true ∧ roundElement src imm8 mxcsr = ⟨quieted src, true, false⟩) ∨
    (isSNaN src = false ∧ (isFinite (afterDaz src mxcsr) = false ∨ isZero (afterDaz src mxcsr) = true) ∧
      roundElement src imm8 mxcsr = ⟨afterDaz src mxcsr, false, false⟩) ∨
    (isFinite (afterDaz src mxcsr) = true ∧ isZero (afterDaz src mxcsr) = false ∧
      roundElement src imm8 mxcsr = roundFinite (afterDaz src mxcsr) imm8 mxcsr) := by
  simp only [roundElement]
  split_ifs with hs hq hi hz
  · rw [isSNaN_afterDaz] at hs
    have hnot : isDenormal src = false := Bool.eq_false_iff.mpr fun h => by simp [isSNaN_of_isDenormal h] at hs
    rw [afterDaz_of_not_isDenormal hnot]
    exact .inl ⟨hs, rfl⟩
  all_goals rw [isSNaN_afterDaz, Bool.not_eq_true] at hs
  · exact .inr (.inl ⟨hs, .inl (isFinite_eq_false_of_isQNaN hq), rfl⟩)
  · exact .inr (.inl ⟨hs, .inl (isFinite_eq_false_of_isInfinity hi), rfl⟩)
  · exact .inr (.inl ⟨hs, .inr hz, rfl⟩)
  · simp only [Bool.not_eq_true] at hq hi hz
    exact .inr (.inr ⟨isFinite_of_no_other (by rwa [isSNaN_afterDaz]) hq hi, hz, rfl⟩)

theorem roundElement_of_isSNaN {src : Word64} (h : isSNaN src = true) (imm8 : BitVec 8) (mxcsr : BitVec 32) :
    roundElement src imm8 mxcsr = ⟨quieted src, true, false⟩ := by
  have hx : isFinite (afterDaz src mxcsr) = false := isFinite_eq_false_of_isSNaN (by rwa [isSNaN_afterDaz])
  rcases roundElement_cases src imm8 mxcsr with ⟨_, he⟩ | ⟨hs, _⟩ | ⟨hfin, _⟩
  · exact he
  · simp [h] at hs
  · simp [hx] at hfin

theorem roundElement_of_special {src : Word64} {mxcsr : BitVec 32} (hs : isSNaN src = false)
    (h : isFinite (afterDaz src mxcsr) = false ∨ isZero (afterDaz src mxcsr) = true) (imm8 : BitVec 8) :
    roundElement src imm8 mxcsr = ⟨afterDaz src mxcsr, false, false⟩ := by
  rcases roundElement_cases src imm8 mxcsr with ⟨hs', _⟩ | ⟨_, _, he⟩ | ⟨hfin, hnz, _⟩
  · simp [hs] at hs'
  · exact he
  · simp [hfin, hnz] at h

theorem roundElement_of_finite {src : Word64} {mxcsr : BitVec 32} (hfin : isFinite (afterDaz src mxcsr) = true)
    (hnz : isZero (afterDaz src mxcsr) = false) (imm8 : BitVec 8) :
    roundElement src imm8 mxcsr = roundFinite (afterDaz src mxcsr) imm8 mxcsr := by
  rcases roundElement_cases src imm8 mxcsr with ⟨hs, _⟩ | ⟨_, h, _⟩ | ⟨_, _, he⟩
  · simp [isFinite_eq_false_of_isSNaN ((isSNaN_afterDaz src mxcsr).trans hs)] at hfin
  · simp [hfin, hnz] at h
  · exact he

/-- Settles O17: of the elements that come back DAZ changes only denormals, which it makes zeros. -/
theorem specialElementsComeBack : Obligations.SpecialElementsComeBack := by
  intro src imm8 mxcsr
  refine ⟨fun h => ?_, fun hden hdaz => ?_, fun hs => ?_⟩
  · have hclass : isDenormal src = false ∧ isSNaN src = false ∧ (isFinite src = false ∨ isZero src = true) := by
      rcases h with h | h | h
      · exact ⟨by simp_all [isInfinity, isDenormal], isSNaN_eq_false_of_isInfinity h, .inl (isFinite_eq_false_of_isInfinity h)⟩
      · exact ⟨isDenormal_eq_false_of_isZero h, by simp_all [isZero, isSNaN], .inr h⟩
      · exact ⟨by simp_all [isQNaN, isDenormal], isSNaN_eq_false_of_isQNaN h, .inl (isFinite_eq_false_of_isQNaN h)⟩
    obtain ⟨hden, hs, hspecial⟩ := hclass
    have hx := afterDaz_of_not_isDenormal hden mxcsr
    rw [roundElement_of_special hs (by rwa [hx]), hx]
  · have hx := afterDaz_of_isDenormal hdaz hden
    rw [roundElement_of_special (isSNaN_of_isDenormal hden) (by rw [hx]; exact .inr (isZero_zeroOf _)), hx]
    rfl
  · rw [roundElement_of_isSNaN hs]
    exact ⟨rfl, rfl, isQNaN_quieted hs, by simp [quieted_getLsbD], fun b hb => by simp [quieted_getLsbD, hb]⟩

/-- Settles O20. -/
theorem invalidConditionIsASignallingNaN : Obligations.InvalidConditionIsASignallingNaN := by
  intro src imm8 mxcsr
  rw [roundElement_ie]

end Sys2Proof.Machine
end

section
/-! PROOFS of the statements of 40_vrndscalepd.md about finite elements: their values (R80), the rounded element (R84, R87, R89) and where
the direction comes from (R81). -/

namespace Sys2Proof.Machine

/-! ### The values of finite elements (R80) -/

theorem valQ_eq (b : Word64) : valQ b = signQ (signOf b) * (mantissa b : ℚ) * (2 : ℚ) ^ ((ulpExp b : ℤ) - 1075) := rfl

theorem mantissa_lt (b : Word64) : mantissa b < 2 ^ 53 := by
  have := (fracOf b).isLt
  unfold mantissa
  split <;> omega

@[simp] theorem valQ_zeroOf (s : Bool) : valQ (zeroOf s) = 0 := by
  simp [valQ_eq, mantissa, zeroOf_eq_packed]

section Packed
variable (s : Bool) {e : ℕ} (f : ℕ) (he : 0 < e) (he' : e < 2047)
include he he'

theorem toNat_expOf_packed : (expOf (packed s e f)).toNat = e := by
  rw [expOf_packed, BitVec.toNat_ofNat]
  omega

theorem isNormal_packed : isNormal (packed s e f) = true := by
  have hexp := toNat_expOf_packed s f he he'
  rw [isNormal, Bool.and_eq_true, bne_iff_ne, bne_iff_ne]
  constructor <;> (intro h; rw [h] at hexp; simp at hexp; omega)

theorem valQ_packed (hf : f < 2 ^ 52) :
    valQ (packed s e f) = signQ s * ((2 ^ 52 + f : ℕ) : ℚ) * (2 : ℚ) ^ ((e : ℤ) - 1075) := by
  have hne : expOf (packed s e f) ≠ 0 := (by simpa [isNormal] using isNormal_packed s f he he' : _ ∧ _).1
  have hfrac : (fracOf (packed s e f)).toNat = f := by
    rw [fracOf_packed, BitVec.toNat_ofNat]
    omega
  rw [valQ_eq, mantissa, ulpExp, if_neg hne, if_neg hne, toNat_expOf_packed s f he he', hfrac, signOf_packed]

end Packed

/-! ### The result of rounding as an element (R80, R89) -/

theorem scaleM_lt (imm8 : BitVec 8) : scaleM imm8 < 16 := (imm8.extractLsb' 4 4).isLt

/-- The highest bit of a number of at most 53 bits, shifted to bit 52, is the one that a normal number does not hold. -/
theorem exists_fraction {n : ℕ} (h0 : n ≠ 0) (hn : n < 2 ^ 53) :
    n.log2 ≤ 52 ∧ ∃ f, f < 2 ^ 52 ∧ n * 2 ^ (52 - n.log2) = 2 ^ 52 + f := by
  have hlog : n.log2 < 53 := (Nat.log2_lt h0).mpr hn
  have hlow : 2 ^ n.log2 ≤ n := Nat.log2_self_le h0
  have hhigh : n < 2 ^ (n.log2 + 1) := Nat.lt_log2_self
  have hshift : 2 ^ n.log2 * 2 ^ (52 - n.log2) = 2 ^ 52 := by rw [← pow_add]; congr 1; omega
  have hle := Nat.mul_le_mul_right (2 ^ (52 - n.log2)) hlow
  have hlt := Nat.mul_lt_mul_of_pos_right hhigh (Nat.two_pow_pos (52 - n.log2))
  rw [pow_succ, Nat.mul_right_comm] at hlt
  exact ⟨by omega, n * 2 ^ (52 - n.log2) - 2 ^ 52, by omega, by omega⟩

section Encode
variable (s : Bool) {n M : ℕ}

@[simp] theorem signOf_encodeScaled : signOf (encodeScaled s n M) = s := by
  unfold encodeScaled
  split
  · exact signOf_zeroOf s
  · exact signOf_packed ..

theorem isZero_or_isNormal_encodeScaled (hn : n < 2 ^ 53) (hM : M < 16) :
    isZero (encodeScaled s n M) = true ∨ isNormal (encodeScaled s n M) = true := by
  unfold encodeScaled
  split_ifs with h0
  · exact .inl (isZero_zeroOf s)
  · have := (exists_fraction h0 hn).1
    exact .inr (isNormal_packed s _ (by omega) (by omega))

theorem valQ_encodeScaled (hn : n < 2 ^ 53) (hM : M < 16) : valQ (encodeScaled s n M) = signQ s * n / 2 ^ M := by
  unfold encodeScaled
  split_ifs with h0
  · simp [h0]
  · obtain ⟨hlog, f, hf, hnf⟩ := exists_fraction h0 hn
    have hpow : (2 : ℚ) ^ (52 - n.log2) * 2 ^ (((n.log2 + 1023 - M : ℕ) : ℤ) - 1075) = (2 ^ M)⁻¹ := by
      rw [← zpow_natCast, ← zpow_add₀ two_ne_zero, ← zpow_natCast, ← zpow_neg]
      congr 1
      omega
    rw [hnf, Nat.add_sub_cancel_left, valQ_packed s f (by omega) (by omega) hf, ← hnf, Nat.cast_mul, Nat.cast_pow,
      Nat.cast_ofNat, ← mul_assoc, mul_assoc, hpow, div_eq_mul_inv]

end Encode

/-! ### Rounding a finite element (R84, R87, R89) -/

/-- How many bits of the significand of `x` lie below `2^-M`. -/
def shiftOf (x : Word64) (imm8 : BitVec 8) : ℕ := 1075 - (ulpExp x + scaleM imm8)

/-- The rounded magnitude of `x * 2^M`. -/
def roundedOf (x : Word64) (imm8 : BitVec 8) (mxcsr : BitVec 32) : ℕ :=
  roundMagnitude (direction imm8 mxcsr) (signOf x) (mantissa x) (shiftOf x imm8)

section Finite
variable {x : Word64} {imm8 : BitVec 8}

theorem roundFinite_of_shiftOf_eq_zero (h : shiftOf x imm8 = 0) (mxcsr : BitVec 32) :
    roundFinite x imm8 mxcsr = ⟨x, false, false⟩ := if_pos h

theorem roundFinite_of_shiftOf_ne_zero (h : shiftOf x imm8 ≠ 0) (mxcsr : BitVec 32) :
    roundFinite x imm8 mxcsr = ⟨encodeScaled (signOf x) (roundedOf x imm8 mxcsr) (scaleM imm8), false,
      !suppressPrecision imm8 && decide (roundedOf x imm8 mxcsr * 2 ^ shiftOf x imm8 ≠ mantissa x)⟩ := if_neg h

theorem valQ_mul_two_pow (x : Word64) (M : ℕ) :
    valQ x * 2 ^ M = signQ (signOf x) * mantissa x * 2 ^ ((ulpExp x : ℤ) - 1075 + M) := by
  rw [valQ_eq, zpow_add₀ two_ne_zero, zpow_natCast, mul_assoc]

/-- With no bit below `2^-M` the scaled element is an integer. -/
theorem valQ_mul_of_shiftOf_eq_zero (h : shiftOf x imm8 = 0) : ∃ z : ℤ, valQ x * 2 ^ scaleM imm8 = z := by
  have hexp : (ulpExp x : ℤ) - 1075 + scaleM imm8 = (ulpExp x + scaleM imm8 - 1075 : ℕ) := by
    rw [shiftOf] at h
    omega
  refine ⟨(if signOf x then -1 else 1) * mantissa x * 2 ^ (ulpExp x + scaleM imm8 - 1075), ?_⟩
  rw [valQ_mul_two_pow, hexp, zpow_natCast, signQ]
  push_cast
  rfl

theorem valQ_mul_of_shiftOf_ne_zero (h : shiftOf x imm8 ≠ 0) :
    valQ x * 2 ^ scaleM imm8 = signQ (signOf x) * (mantissa x / 2 ^ shiftOf x imm8) := by
  have hexp : (ulpExp x : ℤ) - 1075 + scaleM imm8 = -(shiftOf x imm8 : ℕ) := by
    rw [shiftOf] at h ⊢
    omega
  rw [valQ_mul_two_pow, hexp, zpow_neg, zpow_natCast, div_eq_mul_inv, mul_assoc]

theorem roundMagnitude_le (rd : BitVec 2) (neg : Bool) (m sh : ℕ) : roundMagnitude rd neg m sh ≤ m / 2 ^ sh + 1 := by
  have hcases (up : Bool) (q : ℕ) : (if up then q + 1 else q) ≤ q + 1 := by split <;> omega
  exact hcases _ _

/-- A significand of 53 bits shifted right has at most 52, and one more is at most `2^52`. -/
theorem roundedOf_lt (h : shiftOf x imm8 ≠ 0) (mxcsr : BitVec 32) : roundedOf x imm8 mxcsr < 2 ^ 53 := by
  have hround : roundedOf x imm8 mxcsr ≤ mantissa x / 2 ^ shiftOf x imm8 + 1 := roundMagnitude_le ..
  have hdiv : mantissa x / 2 ^ shiftOf x imm8 ≤ mantissa x / 2 ^ 1 :=
    Nat.div_le_div_left (Nat.pow_le_pow_right two_pos (Nat.one_le_iff_ne_zero.mpr h)) (by decide)
  have hm := mantissa_lt x
  omega

/-- The value of a rounded element that has bits below `2^-M`. -/
theorem valQ_roundFinite_of_shiftOf_ne_zero (h : shiftOf x imm8 ≠ 0) (mxcsr : BitVec 32) :
    valQ (roundFinite x imm8 mxcsr).dest = signQ (signOf x) * roundedOf x imm8 mxcsr / 2 ^ scaleM imm8 := by
  rw [roundFinite_of_shiftOf_ne_zero h]
  exact valQ_encodeScaled _ (roundedOf_lt h mxcsr) (scaleM_lt imm8)

@[simp] theorem signOf_roundFinite (x : Word64) (imm8 : BitVec 8) (mxcsr : BitVec 32) :
    signOf (roundFinite x imm8 mxcsr).dest = signOf x := by
  by_cases h : shiftOf x imm8 = 0
  · rw [roundFinite_of_shiftOf_eq_zero h]
  · rw [roundFinite_of_shiftOf_ne_zero h]
    exact signOf_encodeScaled _

/-- R84: the value is `RoundInt(rd, x * 2^M) * 2^-M`. -/
theorem valQ_roundFinite (x : Word64) (imm8 : BitVec 8) (mxcsr : BitVec 32) :
    valQ (roundFinite x imm8 mxcsr).dest =
      (roundInt (direction imm8 mxcsr) (valQ x * 2 ^ scaleM imm8) : ℚ) / 2 ^ scaleM imm8 := by
  by_cases h : shiftOf x imm8 = 0
  · obtain ⟨z, hz⟩ := valQ_mul_of_shiftOf_eq_zero h
    rw [roundFinite_of_shiftOf_eq_zero h, hz, roundInt_intCast, ← hz, mul_div_cancel_right₀ _ (by positivity)]
  · rw [valQ_roundFinite_of_shiftOf_ne_zero h, valQ_mul_of_shiftOf_ne_zero h, roundInt_signQ_mul, roundedOf, signQ]
    push_cast
    rfl

/-- An element with no bit below `2^-M` is no denormal. -/
theorem isNormal_of_shiftOf_eq_zero (hfin : isFinite x = true) (h : shiftOf x imm8 = 0) : isNormal x = true := by
  have hM := scaleM_lt imm8
  have hexp : expOf x ≠ 0 := by
    intro h0
    rw [shiftOf, ulpExp, if_pos h0] at h
    omega
  simp_all [isNormal, isFinite]

/-- R89: the result is a zero or a normal number. -/
theorem isZero_or_isNormal_roundFinite (hfin : isFinite x = true) (mxcsr : BitVec 32) :
    isZero (roundFinite x imm8 mxcsr).dest = true ∨ isNormal (roundFinite x imm8 mxcsr).dest = true := by
  by_cases h : shiftOf x imm8 = 0
  · rw [roundFinite_of_shiftOf_eq_zero h]
    exact .inr (isNormal_of_shiftOf_eq_zero hfin h)
  · rw [roundFinite_of_shiftOf_ne_zero h]
    exact isZero_or_isNormal_encodeScaled _ (roundedOf_lt h mxcsr) (scaleM_lt imm8)

/-- R87: the precision condition compares the significand with the rounded magnitude, which is to compare the values. -/
theorem roundFinite_pe (x : Word64) (imm8 : BitVec 8) (mxcsr : BitVec 32) :
    (roundFinite x imm8 mxcsr).pe = true ↔
      suppressPrecision imm8 = false ∧ valQ (roundFinite x imm8 mxcsr).dest ≠ valQ x := by
  by_cases h : shiftOf x imm8 = 0
  · simp [roundFinite_of_shiftOf_eq_zero h]
  · have hM : (2 : ℚ) ^ scaleM imm8 ≠ 0 := by positivity
    have hsh : (2 : ℚ) ^ shiftOf x imm8 ≠ 0 := by positivity
    have hsign : signQ (signOf x) ≠ 0 := by cases signOf x <;> simp
    have hval : valQ (roundFinite x imm8 mxcsr).dest = valQ x ↔
        roundedOf x imm8 mxcsr * 2 ^ shiftOf x imm8 = mantissa x := by
      rw [valQ_roundFinite_of_shiftOf_ne_zero h, div_eq_iff hM, valQ_mul_of_shiftOf_ne_zero h, mul_right_inj' hsign,
        eq_div_iff hsh]
      exact_mod_cast Iff.rfl
    rw [ne_eq, hval, roundFinite_of_shiftOf_ne_zero h]
    simp

/-- A magnitude of at least `2^(52-M)` has no bit below `2^-M`. -/
theorem shiftOf_eq_zero_of_large (h : (2 : ℚ) ^ 52 ≤ |valQ x| * 2 ^ scaleM imm8) : shiftOf x imm8 = 0 := by
  by_contra hne
  have habs : |valQ x| * 2 ^ scaleM imm8 = mantissa x / 2 ^ shiftOf x imm8 := by
    have hsign : |signQ (signOf x)| = 1 := by cases signOf x <;> simp
    have hM : (0 : ℚ) < 2 ^ scaleM imm8 := by positivity
    rw [← abs_of_pos hM, ← abs_mul, valQ_mul_of_shiftOf_ne_zero hne, abs_mul, hsign, one_mul, abs_of_nonneg (by positivity)]
  have hm : (mantissa x : ℚ) < 2 ^ 53 := by exact_mod_cast mantissa_lt x
  have hpow : (2 : ℚ) ≤ 2 ^ shiftOf x imm8 := le_self_pow₀ one_le_two hne
  rw [habs, le_div_iff₀ (by positivity)] at h
  linarith

end Finite

/-- Settles O16. -/
theorem finiteElementsAreRoundedExactly : Obligations.FiniteElementsAreRoundedExactly := by
  intro src imm8 mxcsr x rd M hfin hnz d
  have hd : d = (roundFinite x imm8 mxcsr).dest := by simp only [d, roundElement_of_finite hfin hnz, x]
  rw [hd]
  refine ⟨?_, signOf_roundFinite .., valQ_roundFinite ..⟩
  rcases isZero_or_isNormal_roundFinite (imm8 := imm8) hfin mxcsr with h | h
  · exact isFinite_of_isZero h
  · exact isFinite_of_isNormal h

/-- Settles O18: no class of element changes its sign. -/
theorem signIsPreserved : Obligations.SignIsPreserved := by
  intro src imm8 mxcsr
  change signOf (roundElement src imm8 mxcsr).dest = signOf src
  rcases roundElement_cases src imm8 mxcsr with ⟨_, he⟩ | ⟨_, _, he⟩ | ⟨_, _, he⟩ <;> rw [he]
  · simp [signOf, quieted_getLsbD, -BitVec.getLsbD_eq_getElem]
  · exact signOf_afterDaz src mxcsr
  · rw [signOf_roundFinite, signOf_afterDaz]

/-- Settles O19: only a finite non-zero element is rounded, and `roundFinite_pe` says when its value changes. -/
theorem precisionConditionIsAChangeOfValue : Obligations.PrecisionConditionIsAChangeOfValue := by
  intro src imm8 mxcsr
  rcases roundElement_cases src imm8 mxcsr with ⟨hs, he⟩ | ⟨_, hspecial, he⟩ | ⟨hfin, hnz, he⟩ <;> rw [he]
  · have hfin : isFinite (afterDaz src mxcsr) = false := isFinite_eq_false_of_isSNaN (by rwa [isSNaN_afterDaz])
    simp [hfin]
  · rcases hspecial with h | h <;> simp [h]
  · rw [roundFinite_pe]
    exact ⟨fun ⟨hspe, hval⟩ => ⟨hfin, hnz, hspe, hval⟩, fun ⟨_, _, hspe, hval⟩ => ⟨hspe, hval⟩⟩

/-- Settles O21: a finite element comes back as a zero or is rounded, and one with no bit below `2^-M` is left as it is. -/
theorem resultsNeedNoSecondRounding : Obligations.ResultsNeedNoSecondRounding := by
  intro src imm8 mxcsr hsrc
  have hclass : isZero (roundElement src imm8 mxcsr).dest = true ∨ isNormal (roundElement src imm8 mxcsr).dest = true := by
    rcases roundElement_cases src imm8 mxcsr with ⟨hs, _⟩ | ⟨_, hspecial, he⟩ | ⟨hfin, _, he⟩
    · simp [isFinite_eq_false_of_isSNaN hs] at hsrc
    · rw [he]
      exact .inl (hspecial.resolve_left (by simp [isFinite_afterDaz hsrc]))
    · rw [he]
      exact isZero_or_isNormal_roundFinite hfin mxcsr
  refine ⟨hclass.elim isFinite_of_isZero isFinite_of_isNormal,
    hclass.elim isDenormal_eq_false_of_isZero isDenormal_eq_false_of_isNormal, fun hlarge => ?_⟩
  have hsh : shiftOf src imm8 = 0 := shiftOf_eq_zero_of_large hlarge
  have hnorm := isNormal_of_shiftOf_eq_zero hsrc hsh
  have hx := afterDaz_of_not_isDenormal (isDenormal_eq_false_of_isNormal hnorm) mxcsr
  rw [roundElement_of_finite (by rwa [hx]) (by rw [hx]; exact isZero_eq_false_of_isNormal hnorm), hx, roundFinite_of_shiftOf_eq_zero hsh]

/-! ### Where the direction comes from (R81) -/

theorem direction_of_mxcsr {imm8 : BitVec 8} (h : imm8.getLsbD 2 = true) (m : BitVec 32) :
    direction imm8 m = m.extractLsb' 13 2 := if_pos h

theorem direction_of_imm {imm8 : BitVec 8} (h : imm8.getLsbD 2 = false) (m : BitVec 32) :
    direction imm8 m = imm8.extractLsb' 0 2 := if_neg (Bool.eq_false_iff.mp h)

/-- An element is rounded by DAZ, the direction, `M` and `imm8[3]`. -/
theorem roundElement_congr_imm {imm8 imm8' : BitVec 8} {m m' : BitVec 32} (hdaz : mxcsrDAZ m = mxcsrDAZ m')
    (hhigh : imm8.extractLsb' 3 5 = imm8'.extractLsb' 3 5) (hdir : direction imm8 m = direction imm8' m') (src : Word64) :
    roundElement src imm8 m = roundElement src imm8' m' := by
  have hx : afterDaz src m = afterDaz src m' := by rw [afterDaz, afterDaz, hdaz]
  have hbit (i : ℕ) (hi : i < 5) : imm8.getLsbD (3 + i) = imm8'.getLsbD (3 + i) := by
    simpa [hi, -BitVec.getLsbD_eq_getElem] using congrArg (BitVec.getLsbD · i) hhigh
  have hM : scaleM imm8 = scaleM imm8' := by
    refine congrArg BitVec.toNat (BitVec.eq_of_getLsbD_eq fun i hi => ?_)
    simpa [hi, ← Nat.add_assoc, -BitVec.getLsbD_eq_getElem] using hbit (1 + i) (by omega)
  have hspe : suppressPrecision imm8 = suppressPrecision imm8' := hbit 0 (by decide)
  simp only [roundElement, hx, roundFinite, hdir, hM, hspe]

/-- Settles O22: each way of naming the direction reads one field. -/
theorem directionHasOneSource : Obligations.DirectionHasOneSource := by
  intro src imm8 imm8' mxcsr mxcsr' hdaz hhigh
  refine ⟨fun h h' heq => ?_, fun h h' heq => ?_, fun h h' heq => ?_⟩ <;>
    refine roundElement_congr_imm hdaz hhigh ?_ src
  · rwa [direction_of_mxcsr h, direction_of_mxcsr h']
  · rwa [direction_of_imm h, direction_of_imm h']
  · rwa [direction_of_mxcsr h, direction_of_imm h']

end Sys2Proof.Machine
end

section
/-! PROOFS of the statements of 40_vrndscalepd.md about the forms: when an instruction completes (R97), the state it completes in (R91 to R96,
R100 to R109), and what disabled elements do not do (R92). -/

namespace Sys2Proof.Machine

/-! ### When an instruction completes (R97) -/

/-- The state that an instruction completes in; `{sae}` reports no condition (R94). -/
def completedState (s : State) (i : Instr) : State :=
  finalState s (dstOf i) (formDest s i) (!isSae i && formIe s i) (!isSae i && formPe s i) i.length

theorem exec_eq_next_iff {i : Instr} {s t : State} :
    exec i s = .next t ↔ (Ready (vlenOf i) s ∧ OperandReadable s i ∧ NextPcInRange i.length s ∧
      (isSae i = true ∨ NoneUnmasked s (vlenOf i) (maskOf i) (immOf i) (sourceOf s i))) ∧ t = completedState s i := by
  constructor
  · intro h
    obtain ⟨hr, ho, hpc, ie, pe, hsae, hnot, ht⟩ := exec_next h
    rw [nextPcOk_iff] at hpc
    cases hs : isSae i with
    | true =>
      obtain ⟨rfl, rfl⟩ := hsae hs
      exact ⟨⟨hr, ho, hpc, .inl rfl⟩, by rw [ht, completedState, hs]; rfl⟩
    | false =>
      obtain ⟨rfl, rfl, hu⟩ := hnot hs
      exact ⟨⟨hr, ho, hpc, .inr ((unmasked_form_eq_false_iff s i).mp hu)⟩, by rw [ht, completedState, hs]; rfl⟩
  · rintro ⟨⟨hr, ho, hpc, hq⟩, rfl⟩
    rw [← nextPcOk_iff] at hpc
    rw [exec_of_ready hr ho, completedState]
    cases hs : isSae i with
    | true =>
      rw [formBody_of_isSae hs]
      exact complete_of_inRange hpc ..
    | false =>
      have hu := (unmasked_form_eq_false_iff s i).mpr (hq.resolve_left (by simp [hs]))
      rw [formBody_of_not_isSae hs, hu, if_neg Bool.false_ne_true]
      exact complete_of_inRange hpc ..

/-- Settles O28: it completes in `completedState` or not at all. -/
theorem whenAnInstructionCompletes : Obligations.WhenAnInstructionCompletes := by
  intro i s
  exact ⟨fun ⟨_, h⟩ => (exec_eq_next_iff.mp h).1, fun h => ⟨_, exec_eq_next_iff.mpr ⟨h, rfl⟩⟩⟩

/-! ### The state it completes in (R92 to R96) -/

theorem written_completedState (s : State) (i : Instr) :
    Written s (completedState s i) (vlenOf i) (dstOf i) (maskOf i) (immOf i) (sourceOf s i) := by
  intro j
  rw [completedState, readZmm_finalState, if_pos rfl, formDest, lane_newDest]
  by_cases hj : j.val < kl (vlenOf i)
  · rw [if_pos hj, if_pos hj, lane_tmpSrc s i hj]
  · rw [if_neg hj, if_neg hj]

theorem completedState_mxcsr_of_isSae {i : Instr} (h : isSae i = true) (s : State) : (completedState s i).mxcsr = s.mxcsr := by
  simp [completedState, h]

theorem completedState_mxcsr_of_not_isSae {i : Instr} (h : isSae i = false) (s : State) :
    (completedState s i).mxcsr = setFlags s.mxcsr (formIe s i) (formPe s i) := by
  simp [completedState, h]

theorem flagsCollected_completedState {i : Instr} (h : isSae i = false) (s : State) :
    FlagsCollected s (completedState s i) (vlenOf i) (maskOf i) (immOf i) (sourceOf s i) := by
  rw [FlagsCollected, completedState_mxcsr_of_not_isSae h, mxcsrIE_setFlags, mxcsrPE_setFlags, Bool.or_eq_true,
    Bool.or_eq_true, formIe_iff, formPe_iff]
  exact ⟨Iff.rfl, Iff.rfl, fun _ => setFlags_other s.mxcsr _ _⟩

theorem framed_completedState (s : State) (i : Instr) : Framed s (completedState s i) (dstOf i) := framed_finalState ..

theorem completedState_pc (s : State) (i : Instr) : (completedState s i).pc = s.pc + BitVec.ofNat 64 i.length := rfl

/-- A form that reports its conditions completes where none is unmasked. -/
theorem exec_completes {i : Instr} {s : State} (hs : isSae i = false) (hr : Ready (vlenOf i) s) (ho : OperandReadable s i)
    (hpc : NextPcInRange i.length s) (hq : NoneUnmasked s (vlenOf i) (maskOf i) (immOf i) (sourceOf s i)) :
    ∃ t, exec i s = .next t ∧ Written s t (vlenOf i) (dstOf i) (maskOf i) (immOf i) (sourceOf s i) ∧
      FlagsCollected s t (vlenOf i) (maskOf i) (immOf i) (sourceOf s i) ∧ t.pc = s.pc + BitVec.ofNat 64 i.length ∧
      Framed s t (dstOf i) :=
  ⟨completedState s i, exec_eq_next_iff.mpr ⟨⟨hr, ho, hpc, .inr hq⟩, rfl⟩, written_completedState s i,
    flagsCollected_completedState hs s, completedState_pc s i, framed_completedState s i⟩

/-- Settles O23: a register form has no operand in memory. -/
theorem registerFormsComplete : Obligations.RegisterFormsComplete := by
  intro vl dst src k imm8 s hr hpc hq
  cases vl <;> exact exec_completes rfl hr (operandReadable_of_none rfl) hpc hq

/-- Settles O24: the one operand is the readable one. -/
theorem fullMemoryFormsComplete : Obligations.FullMemoryFormsComplete := by
  intro vl dst m k imm8 s hr hpc hread hq
  cases vl <;> exact exec_completes rfl hr (operandReadable_of_some rfl hread) hpc hq

/-- Settles O25: as for the full-width forms, with the 8 bytes as every element's source. -/
theorem broadcastFormsComplete : Obligations.BroadcastFormsComplete := by
  intro vl dst m k imm8 s hr hpc hread hq
  cases vl <;> exact exec_completes rfl hr (operandReadable_of_some rfl hread) hpc hq

/-- Settles O26: `{sae}` completes whatever its elements raise. -/
theorem saeFormCompletes : Obligations.SaeFormCompletes := by
  intro dst src k imm8 s hr hpc
  have ho : OperandReadable s (.vrndscalepdZmmSae dst src k imm8) := operandReadable_of_none rfl
  exact ⟨_, exec_eq_next_iff.mpr ⟨⟨hr, ho, hpc, .inl rfl⟩, rfl⟩, written_completedState s _,
    completedState_mxcsr_of_isSae rfl s, completedState_pc s _, framed_completedState s _⟩

/-! ### The 512 bits of the destination (R92) -/

theorem enabled_iff (s : State) (k : Mask) (j : Fin 8) :
    enabled s k j = true ↔ k.aaa = 0 ∨ (s.readK k.aaa).getLsbD j.val = true := by
  rw [enabled, Bool.or_eq_true, beq_iff_eq]

theorem zmmBits_getLsbD (v : Zmm) (j : Fin 8) {n : ℕ} (h : n < 64) :
    (zmmBits v).getLsbD (64 * j.val + n) = (lane v j).getLsbD n := by
  rw [← zmmBits_extractLsb', BitVec.getLsbD_extractLsb']
  simp [h, -BitVec.getLsbD_eq_getElem]

/-- Bits from VL up are zero where the elements from KL up are. -/
theorem zmmBits_high_eq_false {v : Zmm} {n : ℕ} (h : ∀ j : Fin 8, n ≤ j.val → lane v j = 0) {b : ℕ} (hb : 64 * n ≤ b) :
    (zmmBits v).getLsbD b = false := by
  by_cases hlt : b < 512
  · have hbit := zmmBits_getLsbD v ⟨b / 64, by omega⟩ (Nat.mod_lt b (by decide : 0 < 64))
    rw [h ⟨b / 64, by omega⟩ (by simp only; omega), Nat.div_add_mod] at hbit
    simpa [-BitVec.getLsbD_eq_getElem] using hbit
  · exact BitVec.getLsbD_of_ge _ _ (by omega)

/-- An operand that cannot be read raises #SS, #GP or #PF. -/
theorem behindOperand_fault {s : State} {o : Option (Addr × ℕ × Bool)} {body : Result} {f : Fault}
    (h : behindOperand s o body = .fault f) (hf : f.vector = 6 ∨ f.vector = 19) : body = .fault f := by
  cases o with
  | none => exact h
  | some o =>
    obtain ⟨a, n, ss⟩ := o
    change withOperand s ss a n body = .fault f at h
    unfold withOperand at h
    split at h
    · exact h
    · split at h <;> cases h <;> simp [Fault.vector] at hf
    · cases h
      simp [Fault.vector] at hf
    · cases h

/-- A body answers a fault only for a condition that is reported and unmasked. -/
theorem unmasked_of_formBody_fault {s : State} {i : Instr} {f : Fault} (h : formBody s i = .fault f) :
    isSae i = false ∧ unmasked s.mxcsr (formIe s i) (formPe s i) = true := by
  cases hs : isSae i with
  | true =>
    rw [formBody_of_isSae hs] at h
    exact absurd h advance_not_fault
  | false =>
    rw [formBody_of_not_isSae hs] at h
    split at h
    · exact ⟨rfl, ‹_›⟩
    · exact absurd h advance_not_fault

/-- #XM, and #UD of a machine that is ready, come from the body. -/
theorem formBody_of_exec_fault {s left : State} {i : Instr}
    (h : exec i s = .fault (.simdException left) ∨ Ready (vlenOf i) s ∧ exec i s = .fault (.invalidOpcode left)) :
    ∃ f, formBody s i = .fault f := by
  rw [exec_eq] at h
  rcases h with h | ⟨hr, h⟩
  · rcases gated_cases (vlenOf i) s (behindOperand s (operandOf s i) (formBody s i)) with ⟨_, he⟩ | he | he | he <;>
      rw [he] at h
    · exact ⟨_, behindOperand_fault h (.inr rfl)⟩
    all_goals cases h
  · rw [gated_of_ready hr] at h
    exact ⟨_, behindOperand_fault h (.inl rfl)⟩

theorem exists_unmasked_element {s : State} {i : Instr} (h : unmasked s.mxcsr (formIe s i) (formPe s i) = true) :
    ∃ j, On s (vlenOf i) (maskOf i) j ∧
      ((mxcsrIM s.mxcsr = false ∧ isSNaN (sourceOf s i j) = true) ∨
        (mxcsrPM s.mxcsr = false ∧ (roundElement (sourceOf s i j) (immOf i) s.mxcsr).pe = true)) := by
  simp only [unmasked, Bool.or_eq_true, Bool.and_eq_true, Bool.not_eq_true', formIe_iff, formPe_iff] at h
  rcases h with ⟨⟨j, hj, hie⟩, him⟩ | ⟨⟨j, hj, hpe⟩, hpm⟩
  · exact ⟨j, hj, .inl ⟨him, hie⟩⟩
  · exact ⟨j, hj, .inr ⟨hpm, hpe⟩⟩

/-- Settles O27: the written elements are slices of the register, and a SIMD exception is the body's. -/
theorem destinationIsWrittenUnderTheMask : Obligations.DestinationIsWrittenUnderTheMask := by
  refine fun i s => ⟨fun t h => ?_, fun left h => ?_⟩
  · obtain ⟨_, rfl⟩ := exec_eq_next_iff.mp h
    have hw := written_completedState s i
    refine ⟨fun j hj => ?_, fun b => zmmBits_high_eq_false fun j hj => ?_, fun hs => flagsCollected_completedState hs s⟩
    · rw [zmmBits_extractLsb', zmmBits_extractLsb', hw j, if_pos hj]
      simp only [enabled_iff]
      cases (maskOf i).z <;> simp
    · rw [hw j, if_neg hj.not_gt]
  · obtain ⟨f, hbody⟩ := formBody_of_exec_fault h
    obtain ⟨hs, hu⟩ := unmasked_of_formBody_fault hbody
    exact ⟨hs, exists_unmasked_element hu⟩

/-! ### Register sources that agree on the enabled elements (R92) -/

theorem writeZmm_comm (s : State) {r r' : BitVec 5} (h : r ≠ r') (v v' : Zmm) :
    (s.writeZmm r v).writeZmm r' v' = (s.writeZmm r' v').writeZmm r v := by
  have hne : r.toNat ≠ r'.toNat := fun e => h (BitVec.eq_of_toNat_eq e)
  simp only [State.writeZmm, Vector.set_comm _ _ hne]

theorem finalState_writeZmm (s : State) {r dst : BitVec 5} (h : r ≠ dst) (v new : Zmm) (ie pe : Bool) (n : ℕ) :
    finalState (s.writeZmm r v) dst new ie pe n = (finalState s dst new ie pe n).writeZmm r v := by
  rw [finalState, writeZmm_comm s h]
  rfl

section SameSource
variable {s : State} {i : Instr} {r : BitVec 5} {v : Zmm}
  (hsrc : ∀ j, On s (vlenOf i) (maskOf i) j → sourceOf (s.writeZmm r v) i j = sourceOf s i j)
include hsrc

theorem formIe_writeZmm : formIe (s.writeZmm r v) i = formIe s i := by
  rw [Bool.eq_iff_iff, formIe_iff, formIe_iff]
  refine exists_congr fun j => and_congr_right fun hj => ?_
  rw [hsrc j hj]

theorem formPe_writeZmm : formPe (s.writeZmm r v) i = formPe s i := by
  rw [Bool.eq_iff_iff, formPe_iff, formPe_iff]
  refine exists_congr fun j => and_congr_right fun hj => ?_
  rw [hsrc j hj, writeZmm_mxcsr]

theorem noneUnmasked_writeZmm :
    NoneUnmasked (s.writeZmm r v) (vlenOf i) (maskOf i) (immOf i) (sourceOf (s.writeZmm r v) i) ↔
      NoneUnmasked s (vlenOf i) (maskOf i) (immOf i) (sourceOf s i) := by
  rw [← unmasked_form_eq_false_iff, ← unmasked_form_eq_false_iff, formIe_writeZmm hsrc, formPe_writeZmm hsrc, writeZmm_mxcsr]

variable (hdst : r ≠ dstOf i)
include hdst

theorem formDest_writeZmm : formDest (s.writeZmm r v) i = formDest s i := by
  refine zmm_ext fun j => ?_
  rw [formDest, formDest, lane_newDest, lane_newDest, readZmm_writeZmm, if_neg hdst.symm, writeZmm_enabled, writeZmm_mxcsr]
  by_cases hj : j.val < kl (vlenOf i)
  · rw [if_pos hj, if_pos hj, lane_tmpSrc _ i hj, lane_tmpSrc _ i hj]
    by_cases hon : enabled s (maskOf i) j = true
    · rw [if_pos hon, if_pos hon, hsrc j ⟨hj, hon⟩]
    · rw [if_neg hon, if_neg hon]
  · rw [if_neg hj, if_neg hj]

theorem completedState_writeZmm : completedState (s.writeZmm r v) i = (completedState s i).writeZmm r v := by
  rw [completedState, formDest_writeZmm hsrc hdst, formIe_writeZmm hsrc, formPe_writeZmm hsrc, finalState_writeZmm s hdst,
    completedState]

end SameSource

/-- Settles O35: the two sources agree on the enabled elements, and the register written is not the destination. -/
theorem disabledSourceElementsDoNotMatter : Obligations.DisabledSourceElementsDoNotMatter := by
  intro i vl dst src k imm8 s t v hne hi hv h
  have hform : (vlenOf i = vl ∧ maskOf i = k ∧ dstOf i = dst) ∧
      ∀ u : State, operandOf u i = none ∧ sourceOf u i = lane (u.readZmm src) := by
    rcases hi with rfl | ⟨rfl, rfl⟩
    · cases vl <;> exact ⟨⟨rfl, rfl, rfl⟩, fun _ => ⟨rfl, rfl⟩⟩
    · exact ⟨⟨rfl, rfl, rfl⟩, fun _ => ⟨rfl, rfl⟩⟩
  obtain ⟨⟨rfl, rfl, rfl⟩, hform⟩ := hform
  have hsrc : ∀ j, On s (vlenOf i) (maskOf i) j → sourceOf (s.writeZmm src v) i j = sourceOf s i j := fun j hj => by
    rw [(hform _).2, (hform _).2, readZmm_writeZmm, if_pos rfl, hv j hj]
  obtain ⟨⟨hr, _, hpc, hq⟩, rfl⟩ := exec_eq_next_iff.mp h
  refine exec_eq_next_iff.mpr ⟨⟨hr, operandReadable_of_none (hform _).1, hpc, ?_⟩, (completedState_writeZmm hsrc hne).symm⟩
  exact hq.imp_right (noneUnmasked_writeZmm hsrc).mpr

end Sys2Proof.Machine
end

section
/-! PROOFS of the statements of 40_vrndscalepd.md about bytes: the example words (R100 to R109) and the step on what they decode to (R97). -/

namespace Sys2Proof.Machine

/-- Settles O1: the ten words are fixed, and the decoder computes. -/
theorem exampleWordsDecodeToTheirForms : Obligations.ExampleWordsDecodeToTheirForms := by
  unfold Obligations.ExampleWordsDecodeToTheirForms
  decide

theorem step_of_decode_form {s : State} {i : Instr} {len : ℕ} (hm : s.mode = .bits64)
    (h : decode s.saeAnyLL s.fetch.1 = .form i len) : step s = exec i s := by
  rw [step, if_neg (not_not.mpr hm), h]

theorem step_of_decode_refusedSaeLength {s : State} (hm : s.mode = .bits64)
    (h : decode s.saeAnyLL s.fetch.1 = .refusedSaeLength) : step s = .refused .saeWithNon512Length := by
  rw [step, if_neg (not_not.mpr hm), h]

theorem step_of_decode_notThisInstruction {s : State} (hm : s.mode = .bits64)
    (h : decode s.saeAnyLL s.fetch.1 = .notThisInstruction) : step s = .refused .notThisInstruction := by
  rw [step, if_neg (not_not.mpr hm), h]

/-- Settles O11: the bytes at `pc` settle the decoding of what is fetched, whatever follows them. -/
theorem stepRunsTheDecodedInstruction : Obligations.StepRunsTheDecodedInstruction := by
  intro s bytes hm hc hn hb
  have hfetch {d : Decoded} (hd : d ≠ .short) (h : decode s.saeAnyLL bytes = d) : decode s.saeAnyLL s.fetch.1 = d :=
    (decode_fetch_of_codeAt hc hn hb (h ▸ hd)).trans h
  exact ⟨fun i len h => step_of_decode_form hm (hfetch (by simp) h), fun h => step_of_decode_ud hm (hfetch (by simp) h),
    fun h => step_of_decode_refusedLegacyPrefix hm (hfetch (by simp) h),
    fun h => step_of_decode_refusedSaeLength hm (hfetch (by simp) h),
    fun h => step_of_decode_notThisInstruction hm (hfetch (by simp) h)⟩

end Sys2Proof.Machine
end

section
/-! PROOFS of the statements of 60_exceptions.md: when an instruction may execute (R121, R122, R124), the unmasked response (R125) and
what a fault leaves (R120, R127). -/

namespace Sys2Proof.Machine

/-! ### The modes (R121 j) -/

theorem step_of_mode_ne_bits64 {s : State} (hm : s.mode ≠ .bits64) : step s = .refused .modeNotAdmitted := by
  rw [step, if_pos hm]

section Gate
variable {vl : VLen} {s : State} {body : Result}

theorem gated_of_realAddress_or_virtual8086 (hm : s.mode = .realAddress ∨ s.mode = .virtual8086) :
    gated vl s body = .fault (.invalidOpcode s) := by
  rcases hm with hm | hm <;> rw [gated, hm] <;> rfl

theorem gated_of_protected32_or_compatibility (hm : s.mode = .protected32 ∨ s.mode = .compatibility) :
    gated vl s body = .refused .modeNotAdmitted := by
  rcases hm with hm | hm <;> rw [gated, hm]

/-! ### The checks of 64-bit mode (R121 g, h, R122, R124) -/

theorem gated_of_not_enabled (hm : s.mode = .bits64) (h : s.osEnabled = false ∨ s.featureOk vl = false) :
    gated vl s body = .fault (.invalidOpcode s) := by
  have hcheck : (s.osEnabled && s.featureOk vl) = false := Bool.and_eq_false_iff.mpr h
  simp [gated, hm, hcheck, raise]

theorem gated_of_taskSwitched (hm : s.mode = .bits64) (ho : s.osEnabled = true) (hf : s.featureOk vl = true)
    (ht : s.cr0Ts = true) : gated vl s body = .fault (.deviceNotAvailable s) := by
  simp [gated, hm, ho, hf, ht, raise]

end Gate

/-- Settles O14: `step` looks at the mode before it fetches, and every form stands behind the gate. -/
theorem otherModesAreNotAdmitted : Obligations.OtherModesAreNotAdmitted := by
  intro s i
  rw [exec_eq]
  exact ⟨step_of_mode_ne_bits64, gated_of_realAddress_or_virtual8086, gated_of_protected32_or_compatibility⟩

/-- Settles O31: past the #UD checks the gate asks for CR0.TS, and only then runs the body, which holds the memory access. -/
theorem taskSwitchedRaisesDeviceNotAvailable : Obligations.TaskSwitchedRaisesDeviceNotAvailable := by
  intro i s hm ho hf ht
  rw [exec_eq]
  exact gated_of_taskSwitched hm ho hf ht

theorem extractLsb'_eq_allOnes_iff {w : ℕ} (x : BitVec w) (start len : ℕ) :
    x.extractLsb' start len = BitVec.allOnes len ↔ ∀ i < len, x.getLsbD (start + i) = true := by
  rw [BitVec.eq_of_getLsbD_eq_iff]
  refine forall₂_congr fun i hi => ?_
  rw [BitVec.getLsbD_extractLsb', BitVec.getLsbD_allOnes]
  simp only [hi, decide_true, Bool.true_and]

/-- The OS enable bit by bit (R124). -/
theorem osEnabled_iff (s : State) :
    s.osEnabled = true ↔ s.cr4Osxsave = true ∧ (s.xcr0.getLsbD 1 = true ∧ s.xcr0.getLsbD 2 = true) ∧
      s.xcr0.getLsbD 5 = true ∧ s.xcr0.getLsbD 6 = true ∧ s.xcr0.getLsbD 7 = true := by
  have hlow := extractLsb'_eq_allOnes_iff s.xcr0 1 2
  have hhigh := extractLsb'_eq_allOnes_iff s.xcr0 5 3
  simp only [Nat.forall_lt_succ_left, Nat.not_lt_zero, IsEmpty.forall_iff, implies_true, and_true] at hlow hhigh
  rw [State.osEnabled, Bool.and_eq_true, Bool.and_eq_true, beq_iff_eq, beq_iff_eq, and_assoc]
  exact and_congr_right fun _ => and_congr hlow hhigh

theorem featureOk_v512 (s : State) : s.featureOk .v512 = (s.cpuid.avx512f || s.cpuid.avx10_1) := rfl

theorem featureOk_of_ne_v512 {vl : VLen} (h : vl ≠ .v512) (s : State) :
    s.featureOk vl = ((s.cpuid.avx512vl && s.cpuid.avx512f) || s.cpuid.avx10_1) := by
  cases vl with
  | v128 | v256 => rfl
  | v512 => exact absurd rfl h

/-- Settles O30: each ground makes `osEnabled` or `featureOk` false, and the gate asks for both first. -/
theorem missingFeatureOrEnableRaisesInvalidOpcode : Obligations.MissingFeatureOrEnableRaisesInvalidOpcode := by
  intro i s hm hmissing
  rw [exec_eq]
  refine gated_of_not_enabled hm ?_
  rw [← Bool.not_eq_true s.osEnabled, osEnabled_iff]
  rcases hmissing with h | h | h | h | h | h | ⟨hvl, hf, h10⟩ | ⟨hvl, hf, h10⟩
  iterate 6 exact .inl (by simp [h, -BitVec.getLsbD_eq_getElem])
  · exact .inr (by rw [hvl, featureOk_v512, hf, h10]; rfl)
  · exact .inr (by rw [featureOk_of_ne_v512 hvl, Bool.and_eq_false_iff.mpr hf, h10]; rfl)

/-! ### The unmasked response (R125) -/

/-- The machine with IE and PE set as `ie` and `pe` say, and another count of draws. -/
def State.withFlags (s : State) (ie pe : Bool) (n : ℕ) : State := { s with mxcsr := setFlags s.mxcsr ie pe, draws := n }

section WithFlags
variable (s : State) (ie pe : Bool) (n : ℕ)

@[simp] theorem withFlags_mxcsr : (s.withFlags ie pe n).mxcsr = setFlags s.mxcsr ie pe := rfl
@[simp] theorem withFlags_zmm : (s.withFlags ie pe n).zmm = s.zmm := rfl
@[simp] theorem withFlags_pc : (s.withFlags ie pe n).pc = s.pc := rfl

theorem withFlags_false : s.withFlags false false s.draws = s := by
  rw [State.withFlags, setFlags_false]

theorem othersUnchanged_withFlags : OthersUnchanged s (s.withFlags ie pe n) :=
  ⟨rfl, rfl, rfl, fun _ => rfl, rfl, rfl, rfl, rfl, rfl, rfl, rfl, rfl, rfl⟩

end WithFlags

/-- One condition sets its own flag; of two, which flags are set is left open. -/
theorem faultFlags_single_or_open (m : BitVec 32) (ie pe : Bool) (n : ℕ) :
    ∃ a b, ((ie && pe) = false → a = ie ∧ b = pe) ∧ faultFlags m ie pe n = setFlags m a b := by
  cases hboth : ie && pe with
  | true =>
    obtain ⟨a, b, hflags⟩ := faultFlags_eq_setFlags m ie pe n
    exact ⟨a, b, by simp, hflags⟩
  | false => exact ⟨ie, pe, fun _ => ⟨rfl, rfl⟩, by rw [faultFlags, hboth, if_neg Bool.false_ne_true]⟩

theorem simdFault_withFlags (ie pe : Bool) (s : State) :
    ∃ a b n, ((ie && pe) = false → a = ie ∧ b = pe) ∧ simdFault ie pe s =
      .fault (if s.cr4Osxmmexcpt then .simdException (s.withFlags a b n) else .invalidOpcode (s.withFlags a b n)) := by
  obtain ⟨a, b, hsingle, hflags⟩ := faultFlags_single_or_open s.mxcsr ie pe s.draws
  refine ⟨a, b, s.draws + faultDraws ie pe, hsingle, ?_⟩
  rw [simdFault_eq, hflags]
  split <;> rfl

theorem formBody_of_unmasked {i : Instr} {s : State} (hs : isSae i = false)
    (h : ¬ NoneUnmasked s (vlenOf i) (maskOf i) (immOf i) (sourceOf s i)) :
    formBody s i = simdFault (formIe s i) (formPe s i) s := by
  rw [← unmasked_form_eq_false_iff, Bool.not_eq_false] at h
  rw [formBody_of_not_isSae hs, if_pos h]

theorem formIe_eq_false_iff (s : State) (i : Instr) :
    formIe s i = false ↔ ∀ j, On s (vlenOf i) (maskOf i) j → isSNaN (sourceOf s i j) = false := by
  simp only [← Bool.not_eq_true, formIe_iff, not_exists, not_and]

theorem formPe_eq_false_iff (s : State) (i : Instr) :
    formPe s i = false ↔ ∀ j, On s (vlenOf i) (maskOf i) j → (roundElement (sourceOf s i j) (immOf i) s.mxcsr).pe = false := by
  simp only [← Bool.not_eq_true, formPe_iff, not_exists, not_and]

/-- The unmasked response to a form's conditions is the one that R125 gives for the conditions of its source. -/
theorem raisesSimd_simdFault (s : State) (i : Instr) :
    RaisesSimd s (vlenOf i) (maskOf i) (immOf i) (sourceOf s i) (simdFault (formIe s i) (formPe s i) s) := by
  obtain ⟨a, b, n, hsingle, hfault⟩ := simdFault_withFlags (formIe s i) (formPe s i) s
  refine ⟨s.withFlags a b n, hfault, ?_⟩
  rw [← formIe_iff, ← formPe_iff, ← formIe_eq_false_iff, ← formPe_eq_false_iff]
  refine ⟨fun hie hpe => ?_, fun hpe hie => ?_, setFlags_mono s.mxcsr a b, setFlags_mono s.mxcsr a b,
    fun _ => setFlags_other s.mxcsr a b, rfl, rfl, othersUnchanged_withFlags s a b n⟩
  all_goals
    obtain ⟨rfl, rfl⟩ := hsingle (by rw [hie, hpe]; rfl)
    simp [hie, hpe]

/-- A form that reports its conditions raises the SIMD floating-point exception where one is unmasked. -/
theorem exec_raisesSimd {i : Instr} {s : State} (hs : isSae i = false) (hr : Ready (vlenOf i) s) (ho : OperandReadable s i)
    (h : ¬ NoneUnmasked s (vlenOf i) (maskOf i) (immOf i) (sourceOf s i)) :
    RaisesSimd s (vlenOf i) (maskOf i) (immOf i) (sourceOf s i) (exec i s) := by
  rw [exec_of_ready hr ho, formBody_of_unmasked hs h]
  exact raisesSimd_simdFault s i

/-- Settles O29: each form has no operand or a readable one, so `exec_raisesSimd` says it. -/
theorem unmaskedConditionsRaiseTheSimdException : Obligations.UnmaskedConditionsRaiseTheSimdException := by
  intro vl dst src m k imm8 s hr
  refine ⟨fun h => ?_, fun hread h => ?_, fun hread h => ?_⟩
  · cases vl <;> exact exec_raisesSimd rfl hr (operandReadable_of_none rfl) h
  · cases vl <;> exact exec_raisesSimd rfl hr (operandReadable_of_some rfl hread) h
  · cases vl <;> exact exec_raisesSimd rfl hr (operandReadable_of_some rfl hread) h

/-! ### What a fault leaves (R120, R127) -/

theorem simdFault_fault {ie pe : Bool} {s : State} {f : Fault} (h : simdFault ie pe s = .fault f) :
    (∃ a b n, f.left = s.withFlags a b n) ∧ f.vector = if s.cr4Osxmmexcpt then 19 else 6 := by
  obtain ⟨a, b, n, -, hfault⟩ := simdFault_withFlags ie pe s
  rw [hfault] at h
  cases h
  split <;> exact ⟨⟨a, b, n, rfl⟩, rfl⟩

/-- A fault leaves the machine with no more than flags set and draws taken; where it leaves another machine it has the vector of
the SIMD floating-point exception. -/
theorem step_fault_withFlags {s : State} {f : Fault} (h : step s = .fault f) :
    (∃ a b n, f.left = s.withFlags a b n) ∧ (f.left ≠ s → f.vector = if s.cr4Osxmmexcpt then 19 else 6) := by
  have hcases : f.left = s ∨ ∃ ie pe, simdFault ie pe s = .fault f := by
    rcases step_fault h with hleft | ⟨i, _, _, hexec⟩
    · exact .inl hleft
    · exact exec_fault hexec
  rcases hcases with hleft | ⟨ie, pe, hsimd⟩
  · exact ⟨⟨false, false, s.draws, by rw [hleft, withFlags_false]⟩, fun hne => absurd hleft hne⟩
  · obtain ⟨hleft, hvector⟩ := simdFault_fault hsimd
    exact ⟨hleft, fun _ => hvector⟩

/-- Settles O41: every component but MXCSR and the draws is that of `s`, and flags are set only. -/
theorem faultsLeaveTheStateAsItWas : Obligations.FaultsLeaveTheStateAsItWas := by
  intro s f h
  obtain ⟨⟨a, b, n, hleft⟩, hvector⟩ := step_fault_withFlags h
  refine ⟨?_, ?_, ?_, ?_, ?_, hvector⟩
  · rw [hleft, withFlags_zmm]
  · rw [Fault.savedPc, hleft, withFlags_pc]
  · rw [hleft]
    exact othersUnchanged_withFlags s a b n
  · rw [hleft]
    exact fun _ => setFlags_mono s.mxcsr a b
  · rw [hleft]
    exact fun _ => setFlags_other s.mxcsr a b

/-- Settles O50: the table of R120 is how the numbers are defined. -/
theorem exceptionsCarryTheirNumbers : Obligations.ExceptionsCarryTheirNumbers := by
  intro s code addr
  exact ⟨rfl, rfl, rfl, rfl, rfl, rfl, rfl, rfl, rfl, rfl, rfl, rfl, rfl⟩

end Sys2Proof.Machine
end

section
/-! PROOFS of the statements of 70_reset_and_hazards.md: the invariant of the machine (R142), what boot and a launch leave (R140 to R142),
and the run of a program (R145). -/

namespace Sys2Proof.Machine

/-! ### The invariant (R142, 20_memory.md R38) -/

section FinalState
variable {s : State} (dst : BitVec 5) (new : Zmm) (ie pe : Bool) (n : ℕ)

@[simp] theorem finalState_mem : (finalState s dst new ie pe n).mem = s.mem := rfl
@[simp] theorem finalState_mode : (finalState s dst new ie pe n).mode = s.mode := rfl
@[simp] theorem finalState_csBase : (finalState s dst new ie pe n).csBase = s.csBase := rfl

theorem inv_finalState (h : Inv s) : Inv (finalState s dst new ie pe n) := by
  obtain ⟨hmem, hmxcsr, hcs⟩ := h
  refine ⟨?_, ?_, ?_⟩
  · rwa [finalState_mem]
  · rwa [MxcsrReservedZero, finalState_mxcsr, mxcsrReserved_setFlags]
  · rwa [finalState_mode, finalState_csBase]

end FinalState

/-- Settles O37: a step that answers a next state is one instruction, and it completes in a `finalState`. -/
theorem stepKeepsTheInvariant : Obligations.StepKeepsTheInvariant := by
  intro s t hinv h
  obtain ⟨-, i, -, -, hexec⟩ := step_next h
  obtain ⟨new, ie, pe, -, -, rfl⟩ := exec_next_finalState hexec
  exact inv_finalState (dstOf i) new ie pe i.length hinv

/-! ### Reset and boot (R140, R141) -/

@[simp] theorem boot_featureOk (s : State) (vl : VLen) : s.boot.featureOk vl = s.featureOk vl := rfl

/-- Boot sets each bit that the OS enable asks for (R141, 60_exceptions.md R124). -/
theorem boot_osEnabled (s : State) : s.boot.osEnabled = true := by
  have hbit {b : ℕ} (h : (0xE6#64).getLsbD b = true) : (s.xcr0 ||| 0xE6#64).getLsbD b = true := by
    rw [BitVec.getLsbD_or, h, Bool.or_true]
  exact (osEnabled_iff s.boot).mpr
    ⟨boot_cr4Osxsave s, ⟨hbit (by decide), hbit (by decide)⟩, hbit (by decide), hbit (by decide), hbit (by decide)⟩

theorem ready_boot_iff (s : State) (vl : VLen) : Ready vl s.boot ↔ s.featureOk vl = true :=
  ⟨fun ⟨_, _, hf, _⟩ => hf, fun hf => ⟨boot_mode s, boot_osEnabled s, hf, boot_cr0Ts s⟩⟩

/-- Settles O43: reset leaves real-address mode, where the gate raises #UD, and boot makes every setting the gate asks for
but the CPUID flags. -/
theorem resetNeedsBoot : Obligations.ResetNeedsBoot := by
  refine ⟨fun i => ?_, ready_boot_iff⟩
  rw [exec_eq]
  exact gated_of_realAddress_or_virtual8086 (.inl rfl)

/-! ### A launch (R142) -/

theorem toNat_add_ofNat_of_lt {a : Addr} {n : ℕ} (h : a.toNat + n < 2 ^ 64) : (a + BitVec.ofNat 64 n).toNat = a.toNat + n := by
  rw [BitVec.toNat_add, BitVec.toNat_ofNat]
  omega

section AllowFetch
variable (s : State)

@[simp] theorem allowFetch_mode : s.allowFetch.mode = s.mode := by
  unfold State.allowFetch
  split <;> rfl

@[simp] theorem allowFetch_pc : s.allowFetch.pc = s.pc := by
  unfold State.allowFetch
  split <;> rfl

@[simp] theorem allowFetch_mem : s.allowFetch.mem = s.mem := by
  unfold State.allowFetch
  split <;> rfl

/-- The fetch is allowed by the old lines, or by the new one before them. -/
theorem translateAccess_allowFetch {i : ℕ} (hi : i ≤ longestInstruction) (hb : s.pc.toNat + i < 2 ^ 64) :
    translateAccess s.allowFetch.xlat (s.pc + BitVec.ofNat 64 i) 1 .fetch = .allow := by
  unfold State.allowFetch
  split
  · rename_i hall
    exact beq_iff_eq.mp (List.all_eq_true.mp hall i (List.mem_range.mpr (by omega)))
  · rw [translateAccess, List.find?_cons_of_pos]
    rw [ruleCovers_iff, toNat_add_ofNat_of_lt hb]
    exact ⟨rfl, ⟨Nat.le_add_right _ _, Nat.add_le_add_left hi _⟩, le_rfl, le_rfl⟩

end AllowFetch

section Launched
variable (s : State) (bs : List Byte)

@[simp] theorem launched_mode : (launched s bs).mode = .bits64 := by
  simp only [launched, allowFetch_mode]
  split
  · assumption
  · rfl

@[simp] theorem launched_pc : (launched s bs).pc = s.pc := by
  simp only [launched, allowFetch_pc]
  split <;> rfl

theorem launched_mem : (launched s bs).mem = storeBytes s.mem s.pc bs := by
  simp only [launched, allowFetch_mem, allowFetch_pc]
  split <;> rfl

theorem translateAccess_launched {i : ℕ} (hi : i ≤ longestInstruction) (hb : s.pc.toNat + i < 2 ^ 64) :
    translateAccess (launched s bs).xlat (s.pc + BitVec.ofNat 64 i) 1 .fetch = .allow := by
  simp only [launched]
  split
  · exact translateAccess_allowFetch s hi hb
  · exact translateAccess_allowFetch s.boot hi hb

end Launched

/-- A launch leaves the bytes at `pc`, and they may be fetched. -/
theorem codeAt_launched {s : State} {bs : List Byte} (hm : Memory.wf s.mem = true) (hn : bs.length ≤ longestInstruction)
    (hb : s.pc.toNat + bs.length ≤ 2 ^ 64) : CodeAt s.pc bs (launched s bs) := by
  intro i hi
  refine ⟨?_, translateAccess_launched s bs (by omega) (by omega)⟩
  rw [State.readByte, launched_mem]
  exact read_storeBytes hm hi (by omega)

/-- The encoding of an instruction at `pc` is what the step runs. -/
theorem step_of_codeAt_encode {s : State} {i : Instr} (hm : s.mode = .bits64) (hwf : i.wf = true) (hc : CodeAt s.pc (encode i) s)
    (hb : s.pc.toNat + i.length ≤ 2 ^ 64) : step s = exec i s := by
  obtain ⟨hlen, -, hmax⟩ := encode_length i
  have hdecode : decode s.saeAnyLL (encode i) = .form i i.length := by
    simpa using decodeOfEncodeIsTheInstruction s.saeAnyLL i [] hwf
  exact step_of_decode_form hm
    ((decode_fetch_of_codeAt hc (by omega) (by omega) (by simp [hdecode])).trans hdecode)

/-- The instruction launched is what the next step runs, from any state whose memory is canonical. -/
theorem step_launched {s : State} {i : Instr} (hm : Memory.wf s.mem = true) (hwf : i.wf = true)
    (hb : s.pc.toNat + i.length ≤ 2 ^ 64) : step (launched s (encode i)) = exec i (launched s (encode i)) := by
  obtain ⟨hlen, -, hmax⟩ := encode_length i
  have hcode : CodeAt s.pc (encode i) (launched s (encode i)) :=
    codeAt_launched hm (hlen.trans_le hmax) (by omega)
  exact step_of_codeAt_encode (launched_mode ..) hwf (by rwa [launched_pc]) (by rwa [launched_pc])

/-- Settles O13: the reset machine has an empty memory, and room for an instruction at its `pc`. -/
theorem launchedInstructionRunsAfterBoot : Obligations.LaunchedInstructionRunsAfterBoot := by
  intro i hwf
  obtain ⟨-, -, hmax⟩ := encode_length i
  have hpc : State.reset.pc.toNat = 0xFFF0 := rfl
  exact step_launched reset_mem_wf hwf (by omega)

/-! ### Runs (R145) -/

theorem runFor_succ_eq_some_iff {n : ℕ} {s t : State} :
    runFor (n + 1) s = some t ↔ ∃ u, step s = .next u ∧ runFor n u = some t := by
  rw [runFor]
  cases step s <;> simp

theorem runFor_add_eq_some_iff {m n : ℕ} {s t : State} :
    runFor (m + n) s = some t ↔ ∃ u, runFor m s = some u ∧ runFor n u = some t := by
  induction m generalizing s with
  | zero => simp [runFor]
  | succ m ih =>
    rw [Nat.succ_add]
    simp only [runFor_succ_eq_some_iff, ih]
    constructor
    · rintro ⟨v, hv, u, hu, ht⟩
      exact ⟨u, ⟨v, hv, hu⟩, ht⟩
    · rintro ⟨u, ⟨v, hv, hu⟩, ht⟩
      exact ⟨v, hv, u, hu, ht⟩

theorem finishes_succ_iff {e : Addr} {n : ℕ} {s : State} :
    finishes e (n + 1) s = true ↔ s.pc = e ∨ ∃ u, step s = .next u ∧ finishes e n u = true := by
  rw [finishes, Bool.or_eq_true, decide_eq_true_eq]
  cases step s <;> simp

/-- A run that finishes within `n` steps is one that some number of steps takes to the end. -/
theorem finishes_iff {e : Addr} {n : ℕ} {s : State} :
    finishes e n s = true ↔ ∃ m ≤ n, ∃ u, runFor m s = some u ∧ u.pc = e := by
  induction n generalizing s with
  | zero => simp [finishes, runFor]
  | succ n ih =>
    rw [finishes_succ_iff]
    constructor
    · rintro (hpc | ⟨v, hv, hfin⟩)
      · exact ⟨0, Nat.zero_le _, s, rfl, hpc⟩
      · obtain ⟨m, hm, u, hu, hpc⟩ := ih.mp hfin
        exact ⟨m + 1, Nat.succ_le_succ hm, u, runFor_succ_eq_some_iff.mpr ⟨v, hv, hu⟩, hpc⟩
    · rintro ⟨_ | m, hm, u, hu, hpc⟩
      · cases hu
        exact .inl hpc
      · obtain ⟨v, hv, hu⟩ := runFor_succ_eq_some_iff.mp hu
        exact .inr ⟨v, hv, ih.mpr ⟨m, Nat.le_of_succ_le_succ hm, u, hu, hpc⟩⟩

theorem step_pc_lt {s t : State} (h : step s = .next t) : s.pc.toNat < t.pc.toNat := by
  obtain ⟨-, ⟨len, hmin, -, hpc, hwrap⟩, -⟩ := stepChangesOneRegisterTwoFlagsAndPc s t h
  rw [hpc, toNat_add_ofNat_of_lt hwrap]
  omega

theorem runFor_pc_lt {n : ℕ} {s t : State} (h : runFor (n + 1) s = some t) : s.pc.toNat < t.pc.toNat := by
  induction n generalizing s with
  | zero =>
    obtain ⟨u, hu, ht⟩ := runFor_succ_eq_some_iff.mp h
    cases ht
    exact step_pc_lt hu
  | succ n ih =>
    obtain ⟨u, hu, ht⟩ := runFor_succ_eq_some_iff.mp h
    exact (step_pc_lt hu).trans (ih ht)

/-- Before the last state of a run the machine has not come to that state's `pc`, and its next step is safe. -/
theorem runFor_before {m n : ℕ} {s t : State} (h : runFor n s = some t) (hm : m < n) :
    ∃ u, runFor m s = some u ∧ u.pc ≠ t.pc ∧ SafeStep u := by
  obtain ⟨k, rfl⟩ := Nat.exists_eq_add_of_lt hm
  obtain ⟨u, hu, hrest⟩ := (runFor_add_eq_some_iff (n := k + 1)).mp h
  obtain ⟨v, hv, -⟩ := runFor_succ_eq_some_iff.mp hrest
  exact ⟨u, hu, fun hpc => (runFor_pc_lt hrest).ne (congrArg BitVec.toNat hpc), v, hv⟩

/-- Since `pc` only rises, a run comes to its last state's `pc` with its last step and not before. -/
theorem finishes_eq_false_of_lt {m n : ℕ} {s t : State} (h : runFor n s = some t) (hm : m < n) : finishes t.pc m s = false := by
  rw [← Bool.not_eq_true, finishes_iff]
  rintro ⟨k, hk, u, hu, hpc⟩
  obtain ⟨u', hu', hne, -⟩ := runFor_before h (hk.trans_lt hm)
  obtain rfl : u = u' := Option.some.inj (hu.symm.trans hu')
  exact hne hpc

/-! ### A program laid out in memory (R145) -/

theorem execAll_cons_eq_some_iff {i : Instr} {rest : List Instr} {s t : State} :
    execAll (i :: rest) s = some t ↔ ∃ u, exec i s = .next u ∧ execAll rest u = some t := by
  rw [execAll]
  cases exec i s <;> simp

theorem programBytes_cons (i : Instr) (rest : List Instr) : programBytes (i :: rest) = encode i ++ programBytes rest := rfl

theorem codeAt_append {a : Addr} {xs ys : List Byte} {s : State} (h : CodeAt a (xs ++ ys) s) :
    CodeAt a xs s ∧ CodeAt (a + BitVec.ofNat 64 xs.length) ys s := by
  refine ⟨fun i hi => ?_, fun i hi => ?_⟩
  · have hx := h i (by rw [List.length_append]; omega)
    rwa [List.getD_append _ _ _ _ hi] at hx
  · have hy := h (xs.length + i) (by rw [List.length_append]; omega)
    rwa [List.getD_append_right _ _ _ _ (Nat.le_add_right _ _), Nat.add_sub_cancel_left, BitVec.ofNat_add,
      ← BitVec.add_assoc] at hy

theorem OthersUnchanged.refl (s : State) : OthersUnchanged s s :=
  ⟨rfl, rfl, rfl, fun _ => rfl, rfl, rfl, rfl, rfl, rfl, rfl, rfl, rfl, rfl⟩

theorem OthersUnchanged.trans {s t u : State} (h : OthersUnchanged s t) (h' : OthersUnchanged t u) : OthersUnchanged s u := by
  obtain ⟨hk, hx, hrf, hmem, hmode, hcs, hts, hsave, hexc, hxcr, hcpuid, hsae, hxlat⟩ := h
  obtain ⟨hk', hx', hrf', hmem', hmode', hcs', hts', hsave', hexc', hxcr', hcpuid', hsae', hxlat'⟩ := h'
  exact ⟨hk'.trans hk, hx'.trans hx, hrf'.trans hrf, fun a => (hmem' a).trans (hmem a), hmode'.trans hmode, hcs'.trans hcs,
    hts'.trans hts, hsave'.trans hsave, hexc'.trans hexc, hxcr'.trans hxcr, hcpuid'.trans hcpuid, hsae'.trans hsae,
    hxlat'.trans hxlat⟩

/-- Code stays where it is while memory and translation do. -/
theorem OthersUnchanged.codeAt {s t : State} (h : OthersUnchanged s t) {a : Addr} {bs : List Byte} (hc : CodeAt a bs s) :
    CodeAt a bs t := by
  obtain ⟨-, -, -, hmem, -, -, -, -, -, -, -, -, hxlat⟩ := h
  intro i hi
  rw [hmem, hxlat]
  exact hc i hi

/-- The frame of a program: what no instruction of it may change, and the registers that none has as destination. -/
theorem execAll_framed {prog : List Instr} {s t : State} (h : execAll prog s = some t) :
    OthersUnchanged s t ∧ t.draws = s.draws ∧ ∀ r, (∀ i ∈ prog, dstOf i ≠ r) → t.readZmm r = s.readZmm r := by
  induction prog generalizing s with
  | nil =>
    cases h
    exact ⟨.refl t, rfl, fun _ _ => rfl⟩
  | cons i rest ih =>
    obtain ⟨u, hexec, hrest⟩ := execAll_cons_eq_some_iff.mp h
    obtain ⟨⟨hzmm, hdraws, hothers⟩, -⟩ := completedInstructionIsFramed i s u hexec
    obtain ⟨hothers', hdraws', hzmm'⟩ := ih hrest
    refine ⟨hothers.trans hothers', hdraws'.trans hdraws, fun r hr => ?_⟩
    rw [List.forall_mem_cons] at hr
    obtain ⟨hi, hr⟩ := hr
    rw [hzmm' r hr, hzmm r hi.symm]

/-- An instruction that stands at `pc` and completes is one step, and what stands after it then stands at `pc`. -/
theorem step_of_code_completes {i : Instr} {rest : List Byte} {s u : State} (hwf : i.wf = true)
    (hc : CodeAt s.pc (encode i ++ rest) s) (h : exec i s = .next u) :
    step s = .next u ∧ u.pc = s.pc + BitVec.ofNat 64 (encode i).length ∧ s.pc.toNat + (encode i).length < 2 ^ 64 ∧
      CodeAt u.pc rest u := by
  obtain ⟨hlen, -⟩ := encode_length i
  obtain ⟨⟨hmode, -⟩, -, ⟨hwrap, -⟩, -⟩ := (exec_eq_next_iff.mp h).1
  obtain ⟨⟨-, -, hothers⟩, hpc, -⟩ := completedInstructionIsFramed i s u h
  obtain ⟨hcode, hcodeRest⟩ := codeAt_append hc
  rw [hlen] at hcodeRest ⊢
  exact ⟨(step_of_codeAt_encode hmode hwf hcode hwrap.le).trans h, hpc, hwrap, hpc ▸ hothers.codeAt hcodeRest⟩

/-- A program whose instructions stand from `pc` on and complete in turn is run one instruction a step. -/
theorem runFor_of_execAll {prog : List Instr} {s t : State} (hwf : ∀ i ∈ prog, i.wf = true)
    (hc : CodeAt s.pc (programBytes prog) s) (h : execAll prog s = some t) :
    runFor prog.length s = some t ∧ t.pc = s.pc + BitVec.ofNat 64 (programBytes prog).length ∧
      s.pc.toNat + (programBytes prog).length < 2 ^ 64 := by
  induction prog generalizing s with
  | nil =>
    cases h
    exact ⟨rfl, (BitVec.add_zero _).symm, t.pc.isLt⟩
  | cons i rest ih =>
    rw [List.forall_mem_cons] at hwf
    obtain ⟨hi, hwf⟩ := hwf
    obtain ⟨u, hexec, hrest⟩ := execAll_cons_eq_some_iff.mp h
    rw [programBytes_cons] at hc ⊢
    obtain ⟨hstep, hpc, hwrap, hcode⟩ := step_of_code_completes hi hc hexec
    obtain ⟨hrun, hend, hwrap'⟩ := ih hwf hcode hrest
    rw [hpc, toNat_add_ofNat_of_lt hwrap, Nat.add_assoc] at hwrap'
    rw [List.length_append]
    refine ⟨runFor_succ_eq_some_iff.mpr ⟨u, hstep, hrun⟩, ?_, hwrap'⟩
    rw [hend, hpc, BitVec.ofNat_add, BitVec.add_assoc]

/-- Settles O44: the steps run the program's instructions, and `pc`, which only rises, comes to the end with the last of them. -/
theorem laidOutProgramRunsToItsEnd : Obligations.LaidOutProgramRunsToItsEnd := by
  intro prog s t hwf hc h
  obtain ⟨hrun, hend, hwrap⟩ := runFor_of_execAll hwf hc h
  dsimp only
  rw [← hend]
  exact ⟨hrun, rfl, hwrap, finishes_iff.mpr ⟨_, le_rfl, t, hrun, rfl⟩,
    fun n hn => ⟨finishes_eq_false_of_lt hrun hn, runFor_before hrun hn⟩, execAll_framed h⟩

end Sys2Proof.Machine
end
